-- ==== Sys2Proof/Word.lean ====
section
/-! DEFINITION. The value types of the machine: bytes, hex nibbles, CAN frames and the controller's answer to a
transmit request (spec/00_scope.md R11, spec/42_frame_codec.md R160, spec/41_channel_controller.md R144). -/

namespace Sys2Proof

/-- A byte, 0..255 (R11). -/
abbrev Byte := BitVec 8

/-- The value of one hex digit, 0..15 (R15). -/
abbrev Nibble := BitVec 4

/-- The line terminator byte `CR` (R9). -/
def CR : Byte := 0x0D

/-- The whole reply to a failed command, `BELL` (R9). -/
def BELL : Byte := 0x07

/-- The two kinds of CAN identifier (R160). -/
inductive FrameKind
  | standard
  | extended
deriving DecidableEq, Repr

/-- A CAN identifier: 11 bits or 29 bits, the kind being part of the value, so that the same number under the two
kinds gives different frames (R160). -/
inductive FrameId
  | standard (id : BitVec 11)
  | extended (id : BitVec 29)
deriving DecidableEq, Repr

/-- A CAN frame (R160): an identifier and 0 to 8 data bytes.  No remote-request bit, no time stamp, no separate
length.  A value outside these bounds "is not a Frame and cannot be built" (assumption log 9). -/
structure Frame where
  id : FrameId
  data : List Byte
  data_le : data.length ≤ 8
deriving DecidableEq, Repr

/-- The controller's answer `can_tx_ans` to one transmit request (R144). -/
inductive TxAnswer
  | ok
  | bufferOverrun
deriving DecidableEq, Repr, Inhabited

end Sys2Proof
end

