-- ==== Sys2Proof/Config.lean ====
section
/-! DEFINITION. The parameters of the model (spec/00_scope.md R9) with their constraints, the two reference
configurations of spec/40_bit_timing.md R129, and the one free value (the controller's answer, R144). -/

namespace Sys2Proof

/-- What `S` does while the channel is Open (R9, R222). -/
inductive SWhileOpen
  | reject
  | reconfigureAndClose
deriving DecidableEq, Repr

/-- The four raw bytes of the serial number (R29). -/
structure SerialNumber where
  b0 : Byte
  b1 : Byte
  b2 : Byte
  b3 : Byte
deriving DecidableEq, Repr

/-- The four bytes, index 0 first (R65). -/
def SerialNumber.bytes (n : SerialNumber) : List Byte := [n.b0, n.b1, n.b2, n.b3]

/-- The OPEN bitrates of indices 1 to 7 in bit/s (R126).  Indices 0 and 8 are fixed at 10 000 and 1 000 000. -/
structure MiddleBitrates where
  hz1 : Nat
  hz2 : Nat
  hz3 : Nat
  hz4 : Nat
  hz5 : Nat
  hz6 : Nat
  hz7 : Nat
deriving DecidableEq, Repr

/-- One parameter record (R9).  The segments, the jump width and the prescaler's limit have the widths of the timing fields
they go into (spec/40_bit_timing.md R121, decision D35; assumption log 13).  The fixed bytes `CR` and `BELL` are constants of `Word.lean`; `POLL_PERIOD` is
timing only and is `Config.pollPeriodMs`. -/
structure Config where
  rxCap : Nat
  txCap : Nat
  cmdArgCap : Nat
  hwVersion : Byte
  swVersion : Byte
  serialNumber : SerialNumber
  middleHz : MiddleBitrates
  clockHz : Nat
  q : Nat
  seg1 : BitVec 8
  seg2 : BitVec 8
  sjw : BitVec 8
  prescalerMax : BitVec 16
  acceptLowercaseHex : Bool
  sWhileOpen : SWhileOpen
deriving DecidableEq, Repr

/-- The constraint column of R9, all of it.  A model instantiated outside it must refuse
(spec/93_implementation_defined.md U19). -/
abbrev Config.Valid (c : Config) : Prop :=
  c.cmdArgCap + 2 ≤ c.rxCap ∧ 27 ≤ c.txCap ∧ 25 ≤ c.cmdArgCap ∧
  (10000 < c.middleHz.hz1 ∧ c.middleHz.hz1 < c.middleHz.hz2 ∧ c.middleHz.hz2 < c.middleHz.hz3 ∧
    c.middleHz.hz3 < c.middleHz.hz4 ∧ c.middleHz.hz4 < c.middleHz.hz5 ∧ c.middleHz.hz5 < c.middleHz.hz6 ∧
    c.middleHz.hz6 < c.middleHz.hz7 ∧ c.middleHz.hz7 < 1000000) ∧
  0 < c.clockHz ∧ c.q = 1 + c.seg1.toNat + c.seg2.toNat ∧
  3 * c.q ≤ 4 * (1 + c.seg1.toNat) ∧ 8 * (1 + c.seg1.toNat) ≤ 7 * c.q ∧
  1 ≤ c.seg2.toNat ∧ 1 ≤ c.sjw.toNat ∧ c.sjw.toNat ≤ c.seg2.toNat ∧ 1 ≤ c.prescalerMax.toNat

/-- `POLL_PERIOD` (R9, R391): 1 ms; timing only, no definition of the model reads it. -/
def Config.pollPeriodMs : Nat := 1

/-- Reference configuration A (R9, R129): the value every OPEN parameter takes in the vectors of
spec/95_test_vectors.md.  The middle bitrates and `prescalerMax` are the spec's general-knowledge defaults
(assumption log 1, 2, 20). -/
def Config.referenceA : Config where
  rxCap := 64
  txCap := 64
  cmdArgCap := 32
  hwVersion := 0xFA
  swVersion := 0x01
  serialNumber := ⟨0x30, 0x30, 0x30, 0x31⟩
  middleHz := ⟨20000, 50000, 100000, 125000, 250000, 500000, 800000⟩
  clockHz := 8000000
  q := 16
  seg1 := 13
  seg2 := 2
  sjw := 1
  prescalerMax := 1024
  acceptLowercaseHex := true
  sWhileOpen := .reject

/-- Reference configuration B (R129): 24 MHz and 750 000 bit/s at index 7. -/
def Config.referenceB : Config :=
  { Config.referenceA with
    middleHz := ⟨20000, 50000, 100000, 125000, 250000, 500000, 750000⟩
    clockHz := 24000000 }

/-- FREE VALUE: the controller's answer to the n-th transmit request, where the environment's list of answers has
run out.  No body, so nothing can be proved of it: "either value may come back for any frame in any state" (R144;
assumption log 7). -/
opaque Config.freeTxAnswer : Nat → TxAnswer

end Sys2Proof
end

