-- ==== Sys2Proof/Syntax.lean ====
section
/-! DEFINITION. The instruction set: one constructor per row of spec/opcode_table.json, each carrying the argument
bytes of its line (spec/43_parser_dispatch.md R190), and the five error kinds (spec/60_exceptions.md R330). -/

namespace Sys2Proof

/-- The 14 variant tags (spec/30_encoding.md R84, R190). -/
inductive Variant
  | setup
  | setupWithBtr
  | openChannel
  | closeChannel
  | transmitFrame
  | transmitExtendedFrame
  | transmitRtrFrame
  | transmitExtendedRtrFrame
  | readStatusFlags
  | setAcceptanceCode
  | setAcceptanceMask
  | getVersion
  | getSerialNumber
  | enableTimeStamps
deriving DecidableEq, Repr

/-- A Command `{variant, argument_bytes}` (R190): one constructor per variant, carrying the bytes of the line after
its first byte.  "Command parsing never inspects argument validity ...; argument semantics are validated inside each
handler at run time" (R192), so the arguments stay bytes here. -/
inductive Instr
  /-- `S` (R221) -/
  | setup (arg : List Byte)
  /-- `s` (R223) -/
  | setupWithBtr (arg : List Byte)
  /-- `O` (R224) -/
  | openChannel (arg : List Byte)
  /-- `C` (R225) -/
  | closeChannel (arg : List Byte)
  /-- `t` (R241) -/
  | transmitFrame (arg : List Byte)
  /-- `T` (R242) -/
  | transmitExtendedFrame (arg : List Byte)
  /-- `r` (R245) -/
  | transmitRtrFrame (arg : List Byte)
  /-- `R` (R246) -/
  | transmitExtendedRtrFrame (arg : List Byte)
  /-- `F` (R261) -/
  | readStatusFlags (arg : List Byte)
  /-- `M` (R262) -/
  | setAcceptanceCode (arg : List Byte)
  /-- `m` (R263) -/
  | setAcceptanceMask (arg : List Byte)
  /-- `V` (R264) -/
  | getVersion (arg : List Byte)
  /-- `N` (R265) -/
  | getSerialNumber (arg : List Byte)
  /-- `Z` (R266) -/
  | enableTimeStamps (arg : List Byte)
deriving DecidableEq, Repr

/-- The variant of a command. -/
def Instr.variant : Instr → Variant
  | .setup _ => .setup
  | .setupWithBtr _ => .setupWithBtr
  | .openChannel _ => .openChannel
  | .closeChannel _ => .closeChannel
  | .transmitFrame _ => .transmitFrame
  | .transmitExtendedFrame _ => .transmitExtendedFrame
  | .transmitRtrFrame _ => .transmitRtrFrame
  | .transmitExtendedRtrFrame _ => .transmitExtendedRtrFrame
  | .readStatusFlags _ => .readStatusFlags
  | .setAcceptanceCode _ => .setAcceptanceCode
  | .setAcceptanceMask _ => .setAcceptanceMask
  | .getVersion _ => .getVersion
  | .getSerialNumber _ => .getSerialNumber
  | .enableTimeStamps _ => .enableTimeStamps

/-- The argument bytes of a command (R190). -/
def Instr.arg : Instr → List Byte
  | .setup a => a
  | .setupWithBtr a => a
  | .openChannel a => a
  | .closeChannel a => a
  | .transmitFrame a => a
  | .transmitExtendedFrame a => a
  | .transmitRtrFrame a => a
  | .transmitExtendedRtrFrame a => a
  | .readStatusFlags a => a
  | .setAcceptanceCode a => a
  | .setAcceptanceMask a => a
  | .getVersion a => a
  | .getSerialNumber a => a
  | .enableTimeStamps a => a

/-- The error kinds, in the source's order (R330).  They are internal: none is stored or put on the wire (R331). -/
inductive ErrorKind
  | queueFull
  | invalidCommand
  | notImplemented
  | invalidTiming
  | bufferOverrun
deriving DecidableEq, Repr

/-- The unobservable numbers 0..4 of the error kinds (R330). -/
def ErrorKind.code : ErrorKind → Nat
  | .queueFull => 0
  | .invalidCommand => 1
  | .notImplemented => 2
  | .invalidTiming => 3
  | .bufferOverrun => 4

end Sys2Proof
end

