-- ==== Sys2Proof/WellFormed.lean ====
section
/-! DEFINITION. When a command is one that a line can carry: its argument bytes fit the Command's bound
(spec/30_encoding.md R82) and hold no terminator (R80). -/

namespace Sys2Proof

/-- Check 1: the argument bytes fit `CMD_ARG_CAP` (R82, R190). -/
abbrev Instr.ArgFits (c : Config) (i : Instr) : Prop := i.arg.length ≤ c.cmdArgCap

/-- Check 2: no argument byte is the terminator, which is never part of a line (R80). -/
abbrev Instr.NoTerminator (i : Instr) : Prop := CR ∉ i.arg

/-- A command that some line on the wire carries. -/
abbrev Instr.WellFormed (c : Config) (i : Instr) : Prop := i.ArgFits c ∧ i.NoTerminator

end Sys2Proof
end

