-- ==== Sys2Proof/Decode.lean ====
section
/-! DEFINITION. The decoder: `parse` of a drained line (spec/43_parser_dispatch.md R191) keyed by the command
alphabet (spec/30_encoding.md R84), total on any bytes and rejecting by name; then the encoder, from the same
alphabet; then the host's view of an opcode-table word as a line. -/

namespace Sys2Proof

/-- The command alphabet: 14 bytes, case-sensitive, each selecting one variant (R84). -/
def alphabet : List (Byte × Variant) :=
  [ (0x53, .setup), (0x73, .setupWithBtr), (0x4F, .openChannel), (0x43, .closeChannel),
    (0x74, .transmitFrame), (0x54, .transmitExtendedFrame),
    (0x72, .transmitRtrFrame), (0x52, .transmitExtendedRtrFrame),
    (0x46, .readStatusFlags), (0x4D, .setAcceptanceCode), (0x6D, .setAcceptanceMask),
    (0x56, .getVersion), (0x4E, .getSerialNumber), (0x5A, .enableTimeStamps) ]

/-- The variant of the first row whose byte is `b`. -/
def lookupVariant (b : Byte) : List (Byte × Variant) → Option Variant
  | [] => none
  | (c, v) :: rows => if c = b then some v else lookupVariant b rows

/-- `variant_of` (R191): the row of the alphabet whose byte equals `b`, and `none` for the other 242 byte values. -/
def variantOf (b : Byte) : Option Variant := lookupVariant b alphabet

/-- The Command of a variant and argument bytes (R190). -/
def Variant.command (v : Variant) (arg : List Byte) : Instr :=
  match v with
  | .setup => .setup arg
  | .setupWithBtr => .setupWithBtr arg
  | .openChannel => .openChannel arg
  | .closeChannel => .closeChannel arg
  | .transmitFrame => .transmitFrame arg
  | .transmitExtendedFrame => .transmitExtendedFrame arg
  | .transmitRtrFrame => .transmitRtrFrame arg
  | .transmitExtendedRtrFrame => .transmitExtendedRtrFrame arg
  | .readStatusFlags => .readStatusFlags arg
  | .setAcceptanceCode => .setAcceptanceCode arg
  | .setAcceptanceMask => .setAcceptanceMask arg
  | .getVersion => .getVersion arg
  | .getSerialNumber => .getSerialNumber arg
  | .enableTimeStamps => .enableTimeStamps arg

/-- Why a line is illegal (R94 (a), (b), (c)). -/
inductive DecodeError
  /-- The empty line. -/
  | emptyLine
  /-- A first byte outside the alphabet. -/
  | unknownCommand (b : Byte)
  /-- More than `CMD_ARG_CAP` argument bytes: rejected, never truncated (R82). -/
  | argumentTooLong
deriving DecidableEq, Repr

/-- All three are `InvalidCommand`, at parse time, before dispatch (R94). -/
def DecodeError.kind : DecodeError → ErrorKind
  | .emptyLine => .invalidCommand
  | .unknownCommand _ => .invalidCommand
  | .argumentTooLong => .invalidCommand

/-- `parse` (R191), its tests in the order the rule writes them. -/
def parse (c : Config) (line : List Byte) : Except DecodeError Instr :=
  match line with
  | [] => .error .emptyLine
  | b :: arg =>
    match variantOf b with
    | none => .error (.unknownCommand b)
    | some v => if c.cmdArgCap < arg.length then .error .argumentTooLong else .ok (v.command arg)

/-- The command byte of a variant (R84). -/
def Variant.byte : Variant → Byte
  | .setup => 0x53
  | .setupWithBtr => 0x73
  | .openChannel => 0x4F
  | .closeChannel => 0x43
  | .transmitFrame => 0x74
  | .transmitExtendedFrame => 0x54
  | .transmitRtrFrame => 0x72
  | .transmitExtendedRtrFrame => 0x52
  | .readStatusFlags => 0x46
  | .setAcceptanceCode => 0x4D
  | .setAcceptanceMask => 0x6D
  | .getVersion => 0x56
  | .getSerialNumber => 0x4E
  | .enableTimeStamps => 0x5A

/-- The encoder: the line of a command, its command byte and then its argument bytes with no separator (R81). -/
def encode (i : Instr) : List Byte := i.variant.byte :: i.arg

/-- The bytes the host sends for a command: the line and its terminator (R80, R97). -/
def wire (i : Instr) : List Byte := encode i ++ [CR]

/-- The line whose bytes are the whole bytes of an opcode-table word: byte `k` of the line is bits `8k+7..8k` of the
word.  A line has no length field, so nothing is padded (assumption log 11). -/
def lineOfWord (nbits w : Nat) : List Byte :=
  (List.range ((nbits + 7) / 8)).map fun k => BitVec.ofNat 8 (w >>> (8 * k))

/-- The command the decoder reads from an opcode-table word laid out as a line, under the reference argument bound
(assumption log 11). -/
def decodeTableWord (nbits w : Nat) : Option Instr :=
  match parse Config.referenceA (lineOfWord nbits w) with
  | .ok i => some i
  | .error _ => none

end Sys2Proof
end

