-- ==== Sys2Proof/Machine/State.lean ====
section
/-! DEFINITION. The state of the machine as plain data: the record of spec/10_state.md R21, the traces of R38, the
parameter record the instance was built with, and the inputs still to come from the host, the scheduler and the CAN
channel controller; the machine right after reset (spec/70_reset_and_hazards.md R370). -/

namespace Sys2Proof.Machine

/-- `channel_state` (R23). -/
inductive ChannelState
  | closed
  | opened
deriving DecidableEq, Repr

/-- The one control state of the accumulator (R33, R290). -/
inductive EngineState
  | accumulating
deriving DecidableEq, Repr

/-- The seven latched status flags (R25). -/
structure StatusFlags where
  rxQueueFull : Bool
  txQueueFull : Bool
  errorWarning : Bool
  dataOverrun : Bool
  errorPassive : Bool
  arbitrationLost : Bool
  busError : Bool
deriving DecidableEq, Repr

/-- All seven flags 0 (R21, R370). -/
def StatusFlags.clear : StatusFlags := ⟨false, false, false, false, false, false, false⟩

/-- One thing the outside makes happen (spec/48_agents.md R310, R318): the serial link delivers a byte, the scheduler
runs the poll task (with the answer `can_rx_ans` the controller then gives, R145) or the flush task, the platform
asserts reset. -/
inductive Event
  | rxByte (b : Byte)
  | canPoll (answer : Option Frame)
  | flush
  | reset
deriving DecidableEq, Repr

/-- The result of a handler (R194): a response, possibly empty, or a typed error. -/
inductive Reply
  | response (bytes : List Byte)
  | error (kind : ErrorKind)
deriving DecidableEq, Repr

/-- The machine's state. -/
structure State where
  /-- The parameter record of the instance (R9).  No step changes it. -/
  cfg : Config
  /-- R23 -/
  channelState : ChannelState
  /-- R24: `none`, or the index of the last successful `S`. -/
  bitrate : Option (Fin 9)
  /-- R25 -/
  flags : StatusFlags
  /-- R30 -/
  timestamps : Bool
  /-- R28 -/
  hardwareVersion : Byte
  /-- R28 -/
  softwareVersion : Byte
  /-- R29 -/
  serialNumber : SerialNumber
  /-- R31: the line in progress, oldest byte first. -/
  rxQueue : List Byte
  /-- R32: bytes not yet handed to the serial transmitter, oldest first. -/
  txQueue : List Byte
  /-- R33 -/
  engineState : EngineState
  /-- Trace `ser_out` (R38): every byte handed to the serial transmitter, in order. -/
  serOut : List Byte
  /-- Trace `can_req` (R38): every frame offered to `transmit` with the answer it got, in order. -/
  canReq : List (Frame × TxAnswer)
  /-- The number of `can_rx_poll` events driven so far (R141). -/
  canPolls : Nat
  /-- Inputs: what the outside makes happen next, first first (R314; assumption log 4). -/
  events : List Event
  /-- Inputs: the controller's next answers to `transmit`, first first (R144; assumption log 7). -/
  txAnswers : List TxAnswer
deriving DecidableEq, Repr

/-- The machine has no fault: "no panic, abort, hang, halt or undefined state" (spec/60_exceptions.md R333), and the
treatment `fault` "is used nowhere" (spec/93_implementation_defined.md).  Nobody raises one, so the type is empty: safe. -/
inductive Fault : Type
deriving DecidableEq, Repr

/-- Why the model has no next state. -/
inductive Refusal
  /-- Raised by an arm of `exec` whose instruction has no meaning yet.  No arm does: every row has its meaning.  Safe. -/
  | notModelled (mnemonic : String)
  /-- Raised by `step` when the parameter record breaks a constraint of R9: "A model instantiated outside the
  constraint must `refuse`" (spec/93_implementation_defined.md U19; assumption log 3).  Safe. -/
  | invalidParameters
deriving DecidableEq, Repr

/-- A machine built with the parameters `c`, right after reset, with the inputs `events` and `answers` to come: every
register of R21 at its reset value, both queues and all traces empty (R370). -/
def State.initial (c : Config) (events : List Event) (answers : List TxAnswer) : State where
  cfg := c
  channelState := .closed
  bitrate := none
  flags := .clear
  timestamps := false
  hardwareVersion := c.hwVersion
  softwareVersion := c.swVersion
  serialNumber := c.serialNumber
  rxQueue := []
  txQueue := []
  engineState := .accumulating
  serOut := []
  canReq := []
  canPolls := 0
  events := events
  txAnswers := answers

/-- The machine right after reset, under reference configuration A and with no input pending (R21, R370; assumption
log 1). -/
def State.reset : State := State.initial Config.referenceA [] []

end Sys2Proof.Machine
end

