-- ==== Sys2Proof/Machine/Operands.lean ====
section
/-! DEFINITION. The hex helpers of spec/00_scope.md R15 and the operand forms of spec/30_encoding.md R83 to R90:
format `F0` and `FN` lines have no operand, `F1` lines one ASCII character, `FS` and `FX` lines hex fields (assembled
into a frame in Machine/Codec.lean). -/

namespace Sys2Proof.Machine

/-- The digits `"0123456789ABCDEF"` (R15). -/
def hexDigits : List Byte :=
  [0x30, 0x31, 0x32, 0x33, 0x34, 0x35, 0x36, 0x37, 0x38, 0x39, 0x41, 0x42, 0x43, 0x44, 0x45, 0x46]

/-- `hexchar(n)`: the byte at index `n` of the digits, uppercase only (R15). -/
def hexChar (n : Nibble) : Byte := hexDigits.getD n.toNat 0x30

/-- `hex2(b)`: high nibble first (R15). -/
def hex2 (b : Byte) : List Byte := [hexChar (b.extractLsb' 4 4), hexChar (b.extractLsb' 0 4)]

/-- `hexN(v, n)`: `n` digits of `v`, most significant first, zero-padded on the left (R15). -/
def hexN (v : Nat) : Nat → List Byte
  | 0 => []
  | n + 1 => hexChar (BitVec.ofNat 4 (v / 16 ^ n)) :: hexN v n

/-- `hexval(c)`: the value of one hex digit; lowercase only where `ACCEPT_LOWERCASE_HEX` is `lower` (R15). -/
def hexVal (lower : Bool) (c : Byte) : Option Nibble :=
  if 0x30 ≤ c.toNat ∧ c.toNat ≤ 0x39 then some (BitVec.ofNat 4 (c.toNat - 0x30))
  else if 0x41 ≤ c.toNat ∧ c.toNat ≤ 0x46 then some (BitVec.ofNat 4 (c.toNat - 0x41 + 10))
  else if lower = true ∧ 0x61 ≤ c.toNat ∧ c.toNat ≤ 0x66 then some (BitVec.ofNat 4 (c.toNat - 0x61 + 10))
  else none

/-- The number whose base-16 digits are those of `acc` and then of the bytes. -/
def unhexFrom (lower : Bool) (acc : Nat) : List Byte → Option Nat
  | [] => some acc
  | c :: cs =>
    match hexVal lower c with
    | none => none
    | some d => unhexFrom lower (16 * acc + d.toNat) cs

/-- `unhex(s)` (R15): most significant digit first; `unhex([]) = 0`. -/
def unhex (lower : Bool) (s : List Byte) : Option Nat := unhexFrom lower 0 s

/-- Data bytes: pairs of hex digits, high digit first (R90); `none` where a digit is missing or not hex. -/
def unhexPairs (lower : Bool) : List Byte → Option (List Byte)
  | [] => some []
  | [_] => none
  | h :: l :: cs =>
    match hexVal lower h, hexVal lower l, unhexPairs lower cs with
    | some hv, some lv, some ds => some (BitVec.ofNat 8 (16 * hv.toNat + lv.toNat) :: ds)
    | _, _, _ => none

/-- Format `F1` for `S` (R86): the bitrate index `arg[0] - 0x30`; `none` is `InvalidCommand`, for an absent `arg[0]` or
one outside `'0'`..`'8'`.  Further bytes are ignored. -/
def bitrateIndex (arg : List Byte) : Option (Fin 9) :=
  match arg with
  | [] => none
  | a :: _ => if h : 0x30 ≤ a.toNat ∧ a.toNat ≤ 0x38 then some ⟨a.toNat - 0x30, by omega⟩ else none

/-- Format `F1` for `Z` (R86): the time-stamp value; `none` is `InvalidCommand`. -/
def timestampValue (arg : List Byte) : Option Bool :=
  match arg with
  | [] => none
  | a :: _ => if a = 0x30 then some false else if a = 0x31 then some true else none

end Sys2Proof.Machine
end

