-- ==== Sys2Proof/Machine/Codec.lean ====
section
/-! DEFINITION. The frame codec, two pure functions (spec/42_frame_codec.md R161 to R167). -/

namespace Sys2Proof.Machine

/-- The kind of a frame's identifier (R160). -/
def frameKind (f : Frame) : FrameKind :=
  match f.id with
  | .standard _ => .standard
  | .extended _ => .extended

/-- The number of a frame's identifier (R160). -/
def frameIdNumber (f : Frame) : Nat :=
  match f.id with
  | .standard v => v.toNat
  | .extended v => v.toNat

/-- The leading type byte: `'t'` or `'T'` (R162). -/
def typeByte : FrameKind → Byte
  | .standard => 0x74
  | .extended => 0x54

/-- The number `k` of identifier digits (R165). -/
def idDigits : FrameKind → Nat
  | .standard => 3
  | .extended => 8

/-- The largest identifier of a kind (R165). -/
def idLimit : FrameKind → Nat
  | .standard => 0x7FF
  | .extended => 0x1FFFFFFF

/-- The identifier of a kind with the number `v`, already checked against the limit. -/
def frameIdOf (k : FrameKind) (v : Nat) : FrameId :=
  match k with
  | .standard => .standard (BitVec.ofNat 11 v)
  | .extended => .extended (BitVec.ofNat 29 v)

/-- The data bytes as uppercase pairs, `data[0]` first (R163 (d)). -/
def hexData : List Byte → List Byte
  | [] => []
  | b :: bs => hex2 b ++ hexData bs

/-- `encode(f, include_type_byte)` (R162). -/
def encodeFrame (f : Frame) (includeTypeByte : Bool) : List Byte :=
  (if includeTypeByte then [typeByte (frameKind f)] else []) ++
    hexN (frameIdNumber f) (idDigits (frameKind f)) ++
    [BitVec.ofNat 8 (0x30 + f.data.length)] ++
    hexData f.data

/-- The kind of frame a variant's arguments decode to; `decode` is for `t` and `T` only (R165). -/
def variantKind : Variant → Option FrameKind
  | .transmitFrame => some .standard
  | .transmitExtendedFrame => some .extended
  | .setup => none
  | .setupWithBtr => none
  | .openChannel => none
  | .closeChannel => none
  | .transmitRtrFrame => none
  | .transmitExtendedRtrFrame => none
  | .readStatusFlags => none
  | .setAcceptanceCode => none
  | .setAcceptanceMask => none
  | .getVersion => none
  | .getSerialNumber => none
  | .enableTimeStamps => none

/-- The variant whose arguments decode to a kind of frame (R169). -/
def kindVariant : FrameKind → Variant
  | .standard => .transmitFrame
  | .extended => .transmitExtendedFrame

/-- `decode` for one kind of frame (R167); `none` is `InvalidCommand`.  The tests stand in the rule's order, each under
its letter.  The last test never fails: by (c) and (g) there are `n ≤ 8` data bytes. -/
def decodeFrameOf (lower : Bool) (k : FrameKind) (arg : List Byte) : Option Frame :=
  if arg.length < idDigits k then none                                          -- (a)
  else if arg.length < idDigits k + 1 then none                                 -- (e)
  else
    match unhex lower (arg.take (idDigits k)) with
    | none => none                                                              -- (f)
    | some v =>
      match hexVal lower (arg.getD (idDigits k) 0) with
      | none => none                                                            -- (b)
      | some n =>
        if 8 < n.toNat then none                                                -- (g)
        else if arg.length - (idDigits k + 1) ≠ 2 * n.toNat then none           -- (c)
        else if idLimit k < v then none                                         -- (d)
        else
          match unhexPairs lower (arg.drop (idDigits k + 1)) with
          | none => none                                                        -- (h)
          | some data => if h : data.length ≤ 8 then some ⟨frameIdOf k v, data, h⟩ else none

/-- `decode(variant, argument_bytes)` (R164, R165): "for totality a model gives every other variant `InvalidCommand`". -/
def decodeFrame (lower : Bool) (v : Variant) (arg : List Byte) : Option Frame :=
  match variantKind v with
  | none => none
  | some k => decodeFrameOf lower k arg

/-- A byte with `'a'`..`'f'` replaced by `'A'`..`'F'` (R170). -/
def upperHex (b : Byte) : Byte := if 0x61 ≤ b.toNat ∧ b.toNat ≤ 0x66 then b - 0x20 else b

end Sys2Proof.Machine
end

