-- ==== Sys2Proof/Machine/Timing.lean ====
section
/-! DEFINITION. The bit-timing resolver, a pure function of the clock, the bitrate and the configuration constants
(spec/40_bit_timing.md R120 to R131), and the predicates on a configuration (spec/00_scope.md R10). -/

namespace Sys2Proof.Machine

/-- `TimingConfig` (R121): true counts, in quanta and in clock periods, with the widths of decision D35 (assumption
log 13). -/
structure TimingConfig where
  prescaler : BitVec 16
  seg1 : BitVec 8
  seg2 : BitVec 8
  sjw : BitVec 8
deriving DecidableEq, Repr

/-- `BITRATE_HZ[i]` (R126): the ends are fixed, the middle is a parameter. -/
def bitrateHz (c : Config) (i : Fin 9) : Nat :=
  match i with
  | 0 => 10000
  | 1 => c.middleHz.hz1
  | 2 => c.middleHz.hz2
  | 3 => c.middleHz.hz3
  | 4 => c.middleHz.hz4
  | 5 => c.middleHz.hz5
  | 6 => c.middleHz.hz6
  | 7 => c.middleHz.hz7
  | 8 => 1000000

/-- `SamplePointOk` (R124): the sample point is within 75 % to 87.5 %, both ends included. -/
abbrev SamplePointOk (c : Config) : Prop := 
  3 * c.q ≤ 4 * (1 + c.seg1.toNat) ∧ 8 * (1 + c.seg1.toNat) ≤ 7 * c.q

/-- `resolve(clock_hz, bitrate_hz)` (R123); `none` is `InvalidTiming`.  Exact division only: "callers must not fall
back to an approximate timing" (R122).  The prescaler is at most `prescalerMax`, so its 16 bits hold it whole. -/
def resolve (c : Config) (clockHz bitrate : Nat) : Option TimingConfig :=
  if bitrate = 0 ∨ clockHz = 0 then none
  else if clockHz % (c.q * bitrate) ≠ 0 then none
  else if clockHz / (c.q * bitrate) < 1 ∨ c.prescalerMax.toNat < clockHz / (c.q * bitrate) then none
  else if ¬ SamplePointOk c then none
  else some { prescaler := BitVec.ofNat 16 (clockHz / (c.q * bitrate)), seg1 := c.seg1, seg2 := c.seg2, sjw := c.sjw }

/-- The call the machine makes: `resolve(CLOCK_HZ, BITRATE_HZ[i])` (R120). -/
def resolveIndex (c : Config) (i : Fin 9) : Option TimingConfig := resolve c c.clockHz (bitrateHz c i)

/-- The lookup form of the resolver: 9 entries, an invalid entry wherever R123 raises `InvalidTiming` (R131). -/
def timingTable (c : Config) : List (Option TimingConfig) :=
  [resolveIndex c 0, resolveIndex c 1, resolveIndex c 2, resolveIndex c 3, resolveIndex c 4,
    resolveIndex c 5, resolveIndex c 6, resolveIndex c 7, resolveIndex c 8]

/-- `TopUnrepresentable(cfg)` (R10). -/
abbrev TopUnrepresentable (c : Config) : Prop := resolveIndex c 8 = none

/-- `OthersRepresentable(cfg)` (R10). -/
abbrev OthersRepresentable (c : Config) : Prop := ∀ i : Fin 9, i.val < 8 → (resolveIndex c i).isSome = true

/-- `DocumentedConfig(cfg)` (R10). -/
abbrev DocumentedConfig (c : Config) : Prop := TopUnrepresentable c ∧ OthersRepresentable c

end Sys2Proof.Machine
end

