-- ==== Sys2Proof/Machine/Update.lean ====
section
/-! DEFINITION. The named writes of the state, `field <- value` (spec/00_scope.md R12): every operation of the machine
writes the state through these.  Their field lemmas are in Sys2Proof/Laws/State.lean. -/

namespace Sys2Proof.Machine

/-- `channel_state <- v` (R23). -/
def State.setChannel (s : State) (v : ChannelState) : State := { s with channelState := v }

/-- `bitrate <- v` (R24). -/
def State.setBitrate (s : State) (v : Option (Fin 9)) : State := { s with bitrate := v }

/-- `flags <- v` (R25). -/
def State.setFlags (s : State) (v : StatusFlags) : State := { s with flags := v }

/-- `timestamps <- v` (R30). -/
def State.setTimestamps (s : State) (v : Bool) : State := { s with timestamps := v }

/-- `rx_queue.data <- v` (R31). -/
def State.setRxQueue (s : State) (v : List Byte) : State := { s with rxQueue := v }

/-- `tx_queue.data <- v` (R32). -/
def State.setTxQueue (s : State) (v : List Byte) : State := { s with txQueue := v }

/-- `engine_state <- v` (R33). -/
def State.setEngine (s : State) (v : EngineState) : State := { s with engineState := v }

/-- `ser_out <- ser_out ++ [b]` (R313). -/
def State.emitByte (s : State) (b : Byte) : State := { s with serOut := s.serOut ++ [b] }

/-- `can_req` gains an offered frame and its answer, and that answer is no longer to come (R38, R144). -/
def State.logRequest (s : State) (f : Frame) (a : TxAnswer) : State :=
  { s with canReq := s.canReq ++ [(f, a)], txAnswers := s.txAnswers.tail }

/-- One more `can_rx_poll` event was driven (R141). -/
def State.logPoll (s : State) : State := { s with canPolls := s.canPolls + 1 }

/-- The inputs still to come (R314). -/
def State.setEvents (s : State) (v : List Event) : State := { s with events := v }

end Sys2Proof.Machine
end

