-- ==== Sys2Proof/Machine/Controller.lean ====
section
/-! DEFINITION. The boundary to the CAN channel controller (spec/41_channel_controller.md R140 to R149): its operations,
which hold no state of their own, and the two level outputs (spec/10_state.md R34, R35). -/

namespace Sys2Proof.Machine

/-- The 1-bit code of `channel_state`: Closed 0, Open 1 (R21). -/
def channelBit : ChannelState → BitVec 1
  | .closed => 0
  | .opened => 1

/-- Output `can_enabled` (R34): a level, 1 while the channel is Open. -/
def canEnabled (s : State) : BitVec 1 := channelBit s.channelState

/-- Output `timing` (R35): `none` while no bitrate is set, else the timing of the stored index. -/
def timingOut (s : State) : Option TimingConfig :=
  match s.bitrate with
  | none => none
  | some i => resolveIndex s.cfg i

/-- `enable()` (R142): idempotent, cannot fail. -/
def controllerEnable (s : State) : State := s.setChannel .opened

/-- `disable()` (R142): idempotent, cannot fail. -/
def controllerDisable (s : State) : State := s.setChannel .closed

/-- `is_enabled()` (R146). -/
def controllerIsEnabled (s : State) : Bool := decide (s.channelState = .opened)

/-- `set_bitrate(i)` (R143): `none` is `InvalidTiming`, with nothing changed; on success the new timing appears on the
`timing` output and the channel is disabled. -/
def controllerSetBitrate (i : Fin 9) (s : State) : Option State :=
  match resolveIndex s.cfg i with
  | none => none
  | some _ => some (controllerDisable (s.setBitrate (some i)))

/-- The answer `can_tx_ans` the next transmit request gets: the environment's next answer, and where none was supplied
the free value (R144; assumption log 7). -/
def nextTxAnswer (s : State) : TxAnswer :=
  match s.txAnswers with
  | a :: _ => a
  | [] => Config.freeTxAnswer s.canReq.length

/-- `transmit(frame)` (R144): offers the frame on `can_tx_req`, takes the answer, records both in `can_req`.  It never
blocks and does not test `channel_state`. -/
def controllerTransmit (f : Frame) (s : State) : TxAnswer × State :=
  (nextTxAnswer s, s.logRequest f (nextTxAnswer s))

/-- `receive()` (R145) with the controller's answer to this poll, `none` being `empty`: not an error, sets no flag. -/
def controllerReceive (answer : Option Frame) (s : State) : Option Frame × State := (answer, s.logPoll)

/-- Trace `can_out` (R38): the offered frames the controller accepted, in order. -/
def canOut (s : State) : List Frame :=
  s.canReq.filterMap fun r =>
    match r.2 with
    | .ok => some r.1
    | .bufferOverrun => none

end Sys2Proof.Machine
end

