-- ==== Sys2Proof/Machine/Flags.lean ====
section
/-! DEFINITION. The status flags: the status byte that `F` renders and the two flags that have a writer
(spec/10_state.md R25 to R27). -/

namespace Sys2Proof.Machine

/-- A flag as a number. -/
def flagBit (b : Bool) : Nat := if b then 1 else 0

/-- `status_byte(flags)`: the weighted sum of R25, first listed field at bit 0, bit 7 always 0. -/
def statusByte (f : StatusFlags) : Byte :=
  BitVec.ofNat 8
    (flagBit f.rxQueueFull * 1 + flagBit f.txQueueFull * 2 + flagBit f.errorWarning * 4 + flagBit f.dataOverrun * 8 +
      flagBit f.errorPassive * 16 + flagBit f.arbitrationLost * 32 + flagBit f.busError * 64)

/-- `flags.rx_queue_full <- 1` (R27, R293). -/
def latchRxQueueFull (f : StatusFlags) : StatusFlags := { f with rxQueueFull := true }

/-- `flags.tx_queue_full <- 1` (R27, R198). -/
def latchTxQueueFull (f : StatusFlags) : StatusFlags := { f with txQueueFull := true }

end Sys2Proof.Machine
end

