-- ==== Sys2Proof/Machine/Queue.lean ====
section
/-! DEFINITION. The operations of the queue block (spec/20_memory.md R51 to R57) on a byte sequence, oldest byte first,
with a capacity; and a queue's history under a sequence of operations, over which the order law R58 is stated.  The two
queues are the machine's only storage: it has no address space (R50; assumption log 17). -/

namespace Sys2Proof.Machine

/-- `Free(q) = q.cap - len(q.data)` (R51). -/
def free (cap : Nat) (q : List Byte) : Nat := cap - q.length

/-- `Push` (R53); `none` is `QueueFull`, with the queue unchanged. -/
def push (cap : Nat) (q : List Byte) (b : Byte) : Option (List Byte) :=
  if q.length = cap then none else some (q ++ [b])

/-- `PushAll` (R54): all of `bs` or nothing; `none` is `QueueFull`. -/
def pushAll (cap : Nat) (q : List Byte) (bs : List Byte) : Option (List Byte) :=
  if free cap q < bs.length then none else some (q ++ bs)

/-- `Pop` (R55): the oldest byte and the rest; `none` is `empty`, not an error kind. -/
def pop : List Byte → Option (Byte × List Byte)
  | [] => none
  | b :: q => some (b, q)

/-- `DrainAll` (R56): every byte, oldest first, and the empty queue. -/
def drainAll (q : List Byte) : List Byte × List Byte := (q, [])

/-- `Clear` (R57). -/
def clearQueue (_q : List Byte) : List Byte := []

/-- `n` pops in a row: the bytes in pop order, and what is left. -/
def popMany : Nat → List Byte → List Byte × List Byte
  | 0, q => ([], q)
  | n + 1, q =>
    match pop q with
    | none => ([], q)
    | some (b, q') => (b :: (popMany n q').1, (popMany n q').2)

/-- One queue operation. -/
inductive QueueOp
  | push (b : Byte)
  | pushAll (bs : List Byte)
  | pop
  | drainAll
deriving DecidableEq, Repr

/-- A queue with its history: what is stored, every byte accepted, every byte returned. -/
structure QueueHistory where
  data : List Byte
  accepted : List Byte
  returned : List Byte
deriving DecidableEq, Repr

/-- One operation, with what it accepted or returned recorded. -/
def QueueHistory.apply (cap : Nat) (h : QueueHistory) : QueueOp → QueueHistory
  | .push b =>
    match Sys2Proof.Machine.push cap h.data b with
    | none => h
    | some d => { h with data := d, accepted := h.accepted ++ [b] }
  | .pushAll bs =>
    match Sys2Proof.Machine.pushAll cap h.data bs with
    | none => h
    | some d => { h with data := d, accepted := h.accepted ++ bs }
  | .pop =>
    match Sys2Proof.Machine.pop h.data with
    | none => h
    | some (b, d) => { h with data := d, returned := h.returned ++ [b] }
  | .drainAll =>
    { h with data := (Sys2Proof.Machine.drainAll h.data).2
             returned := h.returned ++ (Sys2Proof.Machine.drainAll h.data).1 }

/-- A sequence of operations. -/
def QueueHistory.applyAll (cap : Nat) (h : QueueHistory) : List QueueOp → QueueHistory
  | [] => h
  | op :: ops => (h.apply cap op).applyAll cap ops

/-- A queue since reset: empty, nothing accepted, nothing returned. -/
def QueueHistory.fresh : QueueHistory := ⟨[], [], []⟩

end Sys2Proof.Machine
end

