-- ==== Sys2Proof/Machine/Ops.lean ====
section
/-! DEFINITION. The shared operations of the response path: `PushLine` (spec/43_parser_dispatch.md R198), taking an
error and returning from it (spec/60_exceptions.md R334 to R337), and finishing a command (R197). -/

namespace Sys2Proof.Machine

/-- `PushLine(s)` (R198), the one way bytes enter `tx_queue`: the whole line, or nothing and the flag. -/
def pushLine (bs : List Byte) (s : State) : State :=
  match pushAll s.cfg.txCap s.txQueue bs with
  | some q => s.setTxQueue q
  | none => s.setFlags (latchTxQueueFull s.flags)

/-- Return from an error (R337): nothing to restore; the engine accumulates again. -/
def returnFromError (s : State) : State := s.setEngine .accumulating

/-- Taking a parse or handler error at the dispatch boundary (R334): nothing is saved, no register and no mode changes,
control goes to no handler address; the single bell byte is offered to `tx_queue`.  "The same single byte for every
error kind and every command" (R200). -/
def takeError (_kind : ErrorKind) (s : State) : State := returnFromError (pushLine [BELL] s)

/-- What `execute_line` does with the result of a handler (R197): a response and the terminator, or the bell. -/
def finish (h : State × Reply) : State :=
  match h.2 with
  | .response bs => pushLine (bs ++ [CR]) h.1
  | .error k => takeError k h.1

end Sys2Proof.Machine
end

