-- ==== Sys2Proof/Machine/Channel.lean ====
section
/-! DEFINITION. The channel commands `S`, `s`, `O`, `C` (spec/44_cmd_channel.md). -/

namespace Sys2Proof.Machine

/-- `handle_S` (R221), with the policy of R222 for an Open channel. -/
def handleSetup (arg : List Byte) (s : State) : State × Reply :=
  match bitrateIndex arg with
  | none => (s, .error .invalidCommand)
  | some i =>
    if s.channelState = .opened ∧ s.cfg.sWhileOpen = .reject then (s, .error .invalidCommand)
    else
      match controllerSetBitrate i s with
      | none => (s, .error .invalidTiming)
      | some s' => (s', .response [])

/-- `handle_s` (R223). -/
def handleSetupWithBtr (_arg : List Byte) (s : State) : State × Reply := (s, .error .notImplemented)

/-- `handle_O` (R224). -/
def handleOpenChannel (_arg : List Byte) (s : State) : State × Reply := (controllerEnable s, .response [])

/-- `handle_C` (R225). -/
def handleCloseChannel (_arg : List Byte) (s : State) : State × Reply := (controllerDisable s, .response [])

/-- The meaning of `S`. -/
def execSetup (arg : List Byte) (s : State) : Host.Outcome State Fault Refusal := .next (finish (handleSetup arg s))

/-- The meaning of `s`. -/
def execSetupWithBtr (arg : List Byte) (s : State) : Host.Outcome State Fault Refusal :=
  .next (finish (handleSetupWithBtr arg s))

/-- The meaning of `O`. -/
def execOpenChannel (arg : List Byte) (s : State) : Host.Outcome State Fault Refusal :=
  .next (finish (handleOpenChannel arg s))

/-- The meaning of `C`. -/
def execCloseChannel (arg : List Byte) (s : State) : Host.Outcome State Fault Refusal :=
  .next (finish (handleCloseChannel arg s))

end Sys2Proof.Machine
end

