-- ==== Sys2Proof/Machine/Info.lean ====
section
/-! DEFINITION. The status, filter, version, serial-number and time-stamp commands `F`, `M`, `m`, `V`, `N`, `Z`
(spec/46_cmd_info.md). -/

namespace Sys2Proof.Machine

/-- `handle_F` (R261): reading does not clear. -/
def handleReadStatusFlags (_arg : List Byte) (s : State) : State × Reply :=
  (s, .response ([0x46] ++ hex2 (statusByte s.flags)))

/-- `handle_M` (R262). -/
def handleSetAcceptanceCode (_arg : List Byte) (s : State) : State × Reply := (s, .error .notImplemented)

/-- `handle_m` (R263). -/
def handleSetAcceptanceMask (_arg : List Byte) (s : State) : State × Reply := (s, .error .notImplemented)

/-- `handle_V` (R264). -/
def handleGetVersion (_arg : List Byte) (s : State) : State × Reply :=
  (s, .response ([0x56] ++ hex2 s.hardwareVersion ++ hex2 s.softwareVersion))

/-- `handle_N` (R265): the four bytes raw, not as hex. -/
def handleGetSerialNumber (_arg : List Byte) (s : State) : State × Reply :=
  (s, .response ([0x4E] ++ s.serialNumber.bytes))

/-- `handle_Z` (R266): sets the bit to the value named, does not invert it. -/
def handleEnableTimeStamps (arg : List Byte) (s : State) : State × Reply :=
  match timestampValue arg with
  | none => (s, .error .invalidCommand)
  | some v => (s.setTimestamps v, .response [])

/-- The meaning of `F`. -/
def execReadStatusFlags (arg : List Byte) (s : State) : Host.Outcome State Fault Refusal :=
  .next (finish (handleReadStatusFlags arg s))

/-- The meaning of `M`. -/
def execSetAcceptanceCode (arg : List Byte) (s : State) : Host.Outcome State Fault Refusal :=
  .next (finish (handleSetAcceptanceCode arg s))

/-- The meaning of `m`. -/
def execSetAcceptanceMask (arg : List Byte) (s : State) : Host.Outcome State Fault Refusal :=
  .next (finish (handleSetAcceptanceMask arg s))

/-- The meaning of `V`. -/
def execGetVersion (arg : List Byte) (s : State) : Host.Outcome State Fault Refusal :=
  .next (finish (handleGetVersion arg s))

/-- The meaning of `N`. -/
def execGetSerialNumber (arg : List Byte) (s : State) : Host.Outcome State Fault Refusal :=
  .next (finish (handleGetSerialNumber arg s))

/-- The meaning of `Z`. -/
def execEnableTimeStamps (arg : List Byte) (s : State) : Host.Outcome State Fault Refusal :=
  .next (finish (handleEnableTimeStamps arg s))

end Sys2Proof.Machine
end

