-- ==== Sys2Proof/Machine/Transmit.lean ====
section
/-! DEFINITION. The transmit commands `t`, `T`, `r`, `R` (spec/45_cmd_transmit.md). -/

namespace Sys2Proof.Machine

/-- The common body of `handle_t` and `handle_T`: decode first, then transmit, then encode (R243).  No test of the
channel state (R244). -/
def transmitDecoded (v : Variant) (arg : List Byte) (s : State) : State × Reply :=
  match decodeFrame s.cfg.acceptLowercaseHex v arg with
  | none => (s, .error .invalidCommand)
  | some f =>
    match controllerTransmit f s with
    | (.bufferOverrun, s') => (s', .error .bufferOverrun)
    | (.ok, s') => (s', .response (encodeFrame f true))

/-- `handle_t` (R241). -/
def handleTransmitFrame (arg : List Byte) (s : State) : State × Reply := transmitDecoded .transmitFrame arg s

/-- `handle_T` (R242). -/
def handleTransmitExtendedFrame (arg : List Byte) (s : State) : State × Reply :=
  transmitDecoded .transmitExtendedFrame arg s

/-- `handle_r` (R245). -/
def handleTransmitRtrFrame (_arg : List Byte) (s : State) : State × Reply := (s, .error .notImplemented)

/-- `handle_R` (R246). -/
def handleTransmitExtendedRtrFrame (_arg : List Byte) (s : State) : State × Reply := (s, .error .notImplemented)

/-- The meaning of `t`. -/
def execTransmitFrame (arg : List Byte) (s : State) : Host.Outcome State Fault Refusal :=
  .next (finish (handleTransmitFrame arg s))

/-- The meaning of `T`. -/
def execTransmitExtendedFrame (arg : List Byte) (s : State) : Host.Outcome State Fault Refusal :=
  .next (finish (handleTransmitExtendedFrame arg s))

/-- The meaning of `r`. -/
def execTransmitRtrFrame (arg : List Byte) (s : State) : Host.Outcome State Fault Refusal :=
  .next (finish (handleTransmitRtrFrame arg s))

/-- The meaning of `R`. -/
def execTransmitExtendedRtrFrame (arg : List Byte) (s : State) : Host.Outcome State Fault Refusal :=
  .next (finish (handleTransmitExtendedRtrFrame arg s))

end Sys2Proof.Machine
end

