-- ==== Sys2Proof/Machine/Dispatch.lean ====
section
/-! DEFINITION. The dispatcher (spec/43_parser_dispatch.md R194): one arm per variant, total, no default arm.  Executing
a command is running its handler and pushing the reply (R197); the line has been drained before (R292). -/

namespace Sys2Proof.Machine

def exec (i : Instr) (s : State) : Host.Outcome State Fault Refusal :=
  match i with
  | .setup arg => Sys2Proof.Machine.execSetup arg s
  | .setupWithBtr arg => Sys2Proof.Machine.execSetupWithBtr arg s
  | .openChannel arg => Sys2Proof.Machine.execOpenChannel arg s
  | .closeChannel arg => Sys2Proof.Machine.execCloseChannel arg s
  | .transmitFrame arg => Sys2Proof.Machine.execTransmitFrame arg s
  | .transmitExtendedFrame arg => Sys2Proof.Machine.execTransmitExtendedFrame arg s
  | .transmitRtrFrame arg => Sys2Proof.Machine.execTransmitRtrFrame arg s
  | .transmitExtendedRtrFrame arg => Sys2Proof.Machine.execTransmitExtendedRtrFrame arg s
  | .readStatusFlags arg => Sys2Proof.Machine.execReadStatusFlags arg s
  | .setAcceptanceCode arg => Sys2Proof.Machine.execSetAcceptanceCode arg s
  | .setAcceptanceMask arg => Sys2Proof.Machine.execSetAcceptanceMask arg s
  | .getVersion arg => Sys2Proof.Machine.execGetVersion arg s
  | .getSerialNumber arg => Sys2Proof.Machine.execGetSerialNumber arg s
  | .enableTimeStamps arg => Sys2Proof.Machine.execEnableTimeStamps arg s

end Sys2Proof.Machine
end

