-- ==== Sys2Proof/Machine/Agents.lean ====
section
/-! DEFINITION. The agents' steps: the accumulator `RxByte` (spec/47_engine.md R291), `CanPoll` and `Flush`
(spec/48_agents.md R312, R313) and `Reset` (spec/70_reset_and_hazards.md R370).  Each is atomic (R314). -/

namespace Sys2Proof.Machine

/-- `execute_line(line)` (R197): parse, run, respond; a parse error is taken like a handler's. -/
def executeLine (line : List Byte) (s : State) : Host.Outcome State Fault Refusal :=
  match parse s.cfg line with
  | .error e => .next (takeError e.kind s)
  | .ok i => exec i s

/-- The accumulate branch (R293): the byte is appended if there is room; else it is dropped, the flag latches and
nothing is queued for the host (R294, R335). -/
def accumulate (b : Byte) (s : State) : State :=
  match push s.cfg.rxCap s.rxQueue b with
  | some q => s.setRxQueue q
  | none => s.setFlags (latchRxQueueFull s.flags)

/-- The terminator branch (R292): the queue is drained first and is empty whatever then happens to the line. -/
def terminate (s : State) : Host.Outcome State Fault Refusal :=
  executeLine (drainAll s.rxQueue).1 (s.setRxQueue (drainAll s.rxQueue).2)

/-- The `RxByte(b)` step (R291). -/
def rxByte (b : Byte) (s : State) : Host.Outcome State Fault Refusal :=
  if b = CR then terminate (s.setEngine .accumulating) else .next ((accumulate b s).setEngine .accumulating)

/-- The `CanPoll` step (R312) with the controller's answer to this poll.  One frame at most; no channel-state test. -/
def canPoll (answer : Option Frame) (s : State) : State :=
  match controllerReceive answer s with
  | (none, s') => s'
  | (some f, s') => pushLine (encodeFrame f true ++ [CR]) s'

/-- The `Flush` step (R313): one byte to the serial transmitter.  It is enabled only on a non-empty queue; a flush
scheduled on an empty one does nothing (assumption log 6). -/
def flush (s : State) : State :=
  match pop s.txQueue with
  | none => s
  | some (b, q) => (s.setTxQueue q).emitByte b

/-- The `Reset` step (R370).  The traces are observations and stay; bytes still in `tx_queue` are lost. -/
def resetStep (s : State) : State :=
  { s with
    channelState := .closed
    bitrate := none
    flags := .clear
    timestamps := false
    hardwareVersion := s.cfg.hwVersion
    softwareVersion := s.cfg.swVersion
    serialNumber := s.cfg.serialNumber
    rxQueue := clearQueue s.rxQueue
    txQueue := clearQueue s.txQueue
    engineState := .accumulating }

/-- The step of the agent an event names (R310). -/
def agentStep (e : Event) (s : State) : Host.Outcome State Fault Refusal :=
  match e with
  | .rxByte b => rxByte b s
  | .canPoll answer => .next (canPoll answer s)
  | .flush => .next (flush s)
  | .reset => .next (resetStep s)

end Sys2Proof.Machine
end

