-- ==== Sys2Proof/Machine/Step.lean ====
section
/-! DEFINITION. One step of the machine: the next scheduled agent moves (spec/48_agents.md R314).  The line in progress
and its terminator stand in the place of a program counter and a fetch (spec/10_state.md R22). -/

namespace Sys2Proof.Machine

/-- One step.  With no event scheduled no agent moves: the machine makes no progress of its own, and that a flush comes
is an assumption on the schedule (R316, Machine/Schedule.lean; assumption log 5).  A parameter record outside the
constraints of R9 is refused (assumption log 3). -/
def step (s : State) : Host.Outcome State Fault Refusal :=
  if s.cfg.Valid then
    match s.events with
    | [] => .next s
    | e :: rest => agentStep e (s.setEvents rest)
  else .refused .invalidParameters

/-- `s` with the line of an opcode-table word accumulated and its terminator arriving next, so that the very next step
drains that line and runs it (R291, R292; assumption log 11). -/
def State.withFetchWord (s : State) (nbits w : Nat) : State :=
  { s with rxQueue := lineOfWord nbits w, events := .rxByte CR :: s.events }

end Sys2Proof.Machine
end

