-- ==== Sys2Proof/Machine/Ring.lean ====
section
/-! DEFINITION. The ring buffer of spec/20_memory.md R59, one admissible implementation of the queue block: storage
`mem[0 .. cap-1]`, a write index `tail` and a read index `head`, both counting modulo `2*cap`.  It is a refinement the
abstract queue is compared with, "not additional state": the machine's state holds the abstract sequences. -/

namespace Sys2Proof.Machine

/-- A ring buffer (R59). -/
structure Ring where
  cap : Nat
  mem : List Byte
  head : Nat
  tail : Nat
deriving DecidableEq, Repr

/-- `Len = (tail - head) mod 2*cap` (R59). -/
def ringLen (r : Ring) : Nat := (r.tail + 2 * r.cap - r.head) % (2 * r.cap)

/-- The byte in the slot of index `i`, `mem[i mod cap]` (R59). -/
def ringSlot (r : Ring) (i : Nat) : Byte := r.mem.getD (i % r.cap) 0

/-- The abstract sequence a ring buffer stands for: the `Len` slots from `head` on. -/
def ringData (r : Ring) : List Byte := (List.range (ringLen r)).map fun k => ringSlot r (r.head + k)

/-- The indices are in range and the storage has `cap` slots. -/
abbrev RingWf (r : Ring) : Prop :=
  0 < r.cap ∧ r.mem.length = r.cap ∧ r.head < 2 * r.cap ∧ r.tail < 2 * r.cap ∧ ringLen r ≤ r.cap

/-- Write one byte at `tail` and advance it (R59), with no test. -/
def ringWrite (r : Ring) (b : Byte) : Ring :=
  { r with mem := r.mem.set (r.tail % r.cap) b, tail := (r.tail + 1) % (2 * r.cap) }

/-- Write the bytes one after another from `tail` on, leaving `tail` where it is. -/
def ringStore (r : Ring) : Nat → List Byte → List Byte
  | _, [] => r.mem
  | i, b :: bs => (ringStore r (i + 1) bs).set (i % r.cap) b

/-- `Push`: full when `Len = cap` (R59). -/
def ringPush (r : Ring) (b : Byte) : Option Ring :=
  if ringLen r = r.cap then none else some (ringWrite r b)

/-- `PushAll`: `Free` checked once, then the writes, then one `tail` update (R59). -/
def ringPushAll (r : Ring) (bs : List Byte) : Option Ring :=
  if r.cap - ringLen r < bs.length then none
  else some { r with mem := ringStore r r.tail bs, tail := (r.tail + bs.length) % (2 * r.cap) }

/-- `Pop`: read `mem[head mod cap]`, then advance `head` (R59). -/
def ringPop (r : Ring) : Option (Byte × Ring) :=
  if ringLen r = 0 then none
  else some (ringSlot r r.head, { r with head := (r.head + 1) % (2 * r.cap) })

/-- `DrainAll`: read `Len` slots, then `head <- tail` (R59). -/
def ringDrainAll (r : Ring) : List Byte × Ring := (ringData r, { r with head := r.tail })

end Sys2Proof.Machine
end

