-- ==== Sys2Proof/Machine/Run.lean ====
section
/-! DEFINITION. `run(cmd)` (spec/43_parser_dispatch.md R194): the handler of a command and its result, before the
response path.  `exec` is `run` followed by `finish` (Sys2Proof/Laws/Exec.lean); statements about handlers are about
`run`. -/

namespace Sys2Proof.Machine

/-- The state a handler leaves and its response or error (R194). -/
def run (i : Instr) (s : State) : State × Reply :=
  match i with
  | .setup arg => handleSetup arg s
  | .setupWithBtr arg => handleSetupWithBtr arg s
  | .openChannel arg => handleOpenChannel arg s
  | .closeChannel arg => handleCloseChannel arg s
  | .transmitFrame arg => handleTransmitFrame arg s
  | .transmitExtendedFrame arg => handleTransmitExtendedFrame arg s
  | .transmitRtrFrame arg => handleTransmitRtrFrame arg s
  | .transmitExtendedRtrFrame arg => handleTransmitExtendedRtrFrame arg s
  | .readStatusFlags arg => handleReadStatusFlags arg s
  | .setAcceptanceCode arg => handleSetAcceptanceCode arg s
  | .setAcceptanceMask arg => handleSetAcceptanceMask arg s
  | .getVersion arg => handleGetVersion arg s
  | .getSerialNumber arg => handleGetSerialNumber arg s
  | .enableTimeStamps arg => handleEnableTimeStamps arg s

/-- The bytes a result puts on the wire: the response and the terminator, or the bell (R91). -/
def replyLine (r : Reply) : List Byte :=
  match r with
  | .response bs => bs ++ [CR]
  | .error _ => [BELL]

end Sys2Proof.Machine
end

