-- ==== Sys2Proof/Machine/Schedule.lean ====
section
/-! DEFINITION. Unbounded schedules (spec/48_agents.md R310, R314, R316, R317): the step relation with its free choice of
agent, the executions it admits, weak fairness of the flusher, and silence of the outside.  `step` runs the finite part of
a schedule that `State.events` holds; these are the schedules without end (assumption log 4). -/

namespace Sys2Proof.Machine

/-- The enabling column of R310: a flush needs a non-empty `tx_queue`; every other event may come at any time. -/
abbrev Enabled (e : Event) (s : State) : Prop := e = .flush → s.txQueue ≠ []

/-- The step relation: any enabled agent may move (R314). -/
abbrev Moves (e : Event) (s t : State) : Prop := s.cfg.Valid ∧ Enabled e s ∧ agentStep e s = .next t

/-- A schedule without end: which agent moves at each instant, if any.  At an instant `none` no agent moves: "No
assumption is made that `CanPoll` runs at all, nor how often" (R316), nor is any made of the host or of reset. -/
abbrev Schedule := Nat → Option Event

/-- What happens at one instant: the scheduled agent moves, or nothing does. -/
def Instant (o : Option Event) (s t : State) : Prop :=
  match o with
  | none => t = s
  | some e => Moves e s t

/-- The states of an execution under a schedule.  Nothing ends it: "The machine never halts" (R317). -/
def Execution (σ : Schedule) (x : Nat → State) : Prop := ∀ n, Instant (σ n) (x n) (x (n + 1))

/-- Weak fairness of `Flush`, "the only progress assumption a claim may use": "if `tx_queue` stays non-empty, a `Flush`
step eventually happens" (R316).  Nothing is assumed of the poller. -/
def WeaklyFair (σ : Schedule) (x : Nat → State) : Prop :=
  ∀ n, (∀ m, n ≤ m → (x m).txQueue ≠ []) → ∃ m, n ≤ m ∧ σ m = some .flush

/-- The host sends nothing, the poll is answered `empty`, and there is no reset (R317). -/
abbrev Event.Silent (e : Event) : Prop := e = .flush ∨ e = .canPoll none

/-- From instant `k` on the outside is silent. -/
def SilentFrom (σ : Schedule) (k : Nat) : Prop := ∀ n, k ≤ n → ∀ e ∈ σ n, e.Silent

end Sys2Proof.Machine
end

