-- ==== Sys2Proof/Safety.lean ====
section
/-! DEFINITION. The terms claims use: the invariant of the reachable states (spec/20_memory.md R51, R52;
spec/44_cmd_channel.md R226; spec/10_state.md R27, R28, R29), room in the outbound queue, the events that send a line,
and quiescence (spec/48_agents.md R317). -/

namespace Sys2Proof.Machine

/-- The invariant: the parameters are valid, both queues fit their capacities, no terminator is stored in `rx_queue`,
the stored bitrate resolves, the five flags without a writer are 0, the constant registers hold their constants. -/
abbrev State.Inv (s : State) : Prop :=
  s.cfg.Valid ∧
  s.rxQueue.length ≤ s.cfg.rxCap ∧ s.txQueue.length ≤ s.cfg.txCap ∧ CR ∉ s.rxQueue ∧
  (∀ i : Fin 9, s.bitrate = some i → (resolveIndex s.cfg i).isSome = true) ∧
  (s.flags.errorWarning = false ∧ s.flags.dataOverrun = false ∧ s.flags.errorPassive = false ∧
    s.flags.arbitrationLost = false ∧ s.flags.busError = false) ∧
  (s.hardwareVersion = s.cfg.hwVersion ∧ s.softwareVersion = s.cfg.swVersion ∧
    s.serialNumber = s.cfg.serialNumber)

/-- `n` more bytes fit `tx_queue`. -/
abbrev State.Room (s : State) (n : Nat) : Prop := s.txQueue.length + n ≤ s.cfg.txCap

/-- The events by which the host sends `bytes`, one `RxByte` step each (R311). -/
def sendBytes (bytes : List Byte) : List Event := bytes.map .rxByte

/-- The events by which the host sends a line and its terminator. -/
def sendLine (line : List Byte) : List Event := sendBytes line ++ [.rxByte CR]

/-- Under the parameters `c`, every line `b :: arg` within the argument bound is the command `command arg`. -/
abbrev Spells (c : Config) (b : Byte) (command : List Byte → Instr) : Prop :=
  ∀ arg : List Byte, arg.length ≤ c.cmdArgCap → parse c (b :: arg) = .ok (command arg)

/-- What no command changes: the parameters, the constant registers, the line in progress, the control state, `ser_out`,
the poll count and the inputs' schedule.  Of the flags only `tx_queue_full` may be set; `tx_queue` is only appended to. -/
abbrev CommandFrame (s t : State) : Prop :=
  t.cfg = s.cfg ∧ t.hardwareVersion = s.hardwareVersion ∧ t.softwareVersion = s.softwareVersion ∧
  t.serialNumber = s.serialNumber ∧ t.rxQueue = s.rxQueue ∧ t.engineState = s.engineState ∧ t.serOut = s.serOut ∧
  t.canPolls = s.canPolls ∧ t.events = s.events ∧
  (t.flags = s.flags ∨ t.flags = { s.flags with txQueueFull := true }) ∧ s.txQueue <+: t.txQueue

/-- The flags of `s` are still set in `t` (R26). -/
abbrev FlagsKept (s t : StatusFlags) : Prop :=
  (s.rxQueueFull = true → t.rxQueueFull = true) ∧ (s.txQueueFull = true → t.txQueueFull = true) ∧
  (s.errorWarning = true → t.errorWarning = true) ∧ (s.dataOverrun = true → t.dataOverrun = true) ∧
  (s.errorPassive = true → t.errorPassive = true) ∧ (s.arbitrationLost = true → t.arbitrationLost = true) ∧
  (s.busError = true → t.busError = true)

/-- Quiescent (R317): the host has no more bytes to send, every poll still to come is answered `empty`, and `tx_queue` is
empty. -/
abbrev State.Quiescent (s : State) : Prop := (∀ e ∈ s.events, e.Silent) ∧ s.txQueue = []

/-- The next state of an outcome, where there is one. -/
def nextState : Host.Outcome State Fault Refusal → Option State
  | .next s => some s
  | .fault _ => none
  | .refused _ => none

end Sys2Proof.Machine
end

