-- ==== Sys2Proof/Certificates/Slice0/Obligations.lean ====
section
/-! DEFINITION. The statements for the provers, from the numbered rules of spec/.  Ids, tiers, quotes and citations are
in OBLIGATIONS.json. -/

open Sys2Proof Sys2Proof.Machine

/-! ### The queue block (spec/20_memory.md) -/

/-- R53: a push appends one byte, or is refused with nothing changed when the queue is full; and the caller of a
refused push, the `RxByte` step, sets the queue's flag and keeps the queue as it was. That nothing is queued for the
host on a dropped byte is R294's, the spec's own decision D12 (assumption log 14); that a push is refused exactly at
length = capacity, so not in over-full states no run reaches, is assumption log 18. -/
def Obligations.PushAppendsOneByteOrIsRefused : Prop :=
  (∀ (cap : Nat) (q : List Byte) (b : Byte),
    (q.length = cap → push cap q b = none) ∧ (q.length ≠ cap → push cap q b = some (q ++ [b]))) ∧
  (∀ (s : State) (b : Byte), b ≠ CR → s.rxQueue.length = s.cfg.rxCap →
    rxByte b s = .next { s with flags := { s.flags with rxQueueFull := true } })

/-- R54: all of the bytes are appended, or none of them where they do not fit; the empty sequence always fits and
changes nothing. That no part is stored is the spec's own decision D11. -/
def Obligations.PushAllStoresAllOrNothing : Prop :=
  ∀ (cap : Nat) (q bs : List Byte),
    (cap - q.length < bs.length → pushAll cap q bs = none) ∧
    (bs.length ≤ cap - q.length → pushAll cap q bs = some (q ++ bs)) ∧
    pushAll cap q [] = some q

/-- R56 (and R55): draining returns every byte, oldest first, and leaves the queue empty, which is what popping until
empty and keeping the bytes in pop order does; a pop of an empty queue returns nothing. That a pop of an empty queue
returns nothing is R55's, the spec's own decision D7 (assumption log 14). -/
def Obligations.DrainingEqualsPoppingUntilEmpty : Prop :=
  (∀ (b : Byte) (q : List Byte), pop (b :: q) = some (b, q)) ∧ pop [] = none ∧
  ∀ q : List Byte, drainAll q = (q, []) ∧ popMany q.length q = drainAll q

/-- R58, R51: after any sequence of operations since reset, everything returned followed by what is stored is
everything accepted, in order; and the capacity is never exceeded. That the capacity is never exceeded is R51's
invariant, which the spec marks as its own decision D7 (assumption log 14). -/
def Obligations.QueueIsStrictFifo : Prop :=
  ∀ (cap : Nat) (ops : List QueueOp),
    (QueueHistory.fresh.applyAll cap ops).returned ++ (QueueHistory.fresh.applyAll cap ops).data =
      (QueueHistory.fresh.applyAll cap ops).accepted ∧
    (QueueHistory.fresh.applyAll cap ops).data.length ≤ cap

/-- R59: the ring buffer with indices modulo `2*cap` implements the abstract queue: each operation on a well-formed
ring buffer gives the abstract operation's result on the sequence it stands for, and a well-formed ring buffer. The
ring buffer is the spec's own refinement, decision D7. -/
def Obligations.RingBufferImplementsQueue : Prop :=
  ∀ r : Ring, RingWf r →
    (ringData r).length = ringLen r ∧
    (∀ b : Byte, (ringPush r b).map ringData = push r.cap (ringData r) b ∧
      ∀ r', ringPush r b = some r' → RingWf r' ∧ r'.cap = r.cap) ∧
    (∀ bs : List Byte, (ringPushAll r bs).map ringData = pushAll r.cap (ringData r) bs ∧
      ∀ r', ringPushAll r bs = some r' → RingWf r' ∧ r'.cap = r.cap) ∧
    ((ringPop r).map (fun x => (x.1, ringData x.2)) = pop (ringData r) ∧
      ∀ b r', ringPop r = some (b, r') → RingWf r' ∧ r'.cap = r.cap) ∧
    (((ringDrainAll r).1, ringData (ringDrainAll r).2) = drainAll (ringData r) ∧ RingWf (ringDrainAll r).2)

/-! ### Status byte, hex fields, codec (spec/10_state.md R25, spec/00_scope.md R15, spec/42_frame_codec.md) -/

/-- R25: the bit each flag takes in the status byte, and bit 7 always 0. The positions are the spec's own decision D9.
-/
def Obligations.StatusByteBitPositions : Prop :=
  ∀ f : StatusFlags,
    (statusByte f).getLsbD 0 = f.rxQueueFull ∧ (statusByte f).getLsbD 1 = f.txQueueFull ∧
    (statusByte f).getLsbD 2 = f.errorWarning ∧ (statusByte f).getLsbD 3 = f.dataOverrun ∧
    (statusByte f).getLsbD 4 = f.errorPassive ∧ (statusByte f).getLsbD 5 = f.arbitrationLost ∧
    (statusByte f).getLsbD 6 = f.busError ∧ (statusByte f).getLsbD 7 = false

/-- R15: which bytes are hex digits and their values, lowercase only where accepted; and a number written in `n` digits,
most significant first, reads back as itself. -/
def Obligations.HexFieldsReadBack : Prop :=
  (∀ (lower : Bool) (c : Byte) (v : Nibble), hexVal lower c = some v ↔
    (c.toNat = 0x30 + v.toNat ∧ v.toNat ≤ 9) ∨ (c.toNat = 0x41 + v.toNat - 10 ∧ 10 ≤ v.toNat) ∨
      (lower = true ∧ c.toNat = 0x61 + v.toNat - 10 ∧ 10 ≤ v.toNat)) ∧
  ∀ (lower : Bool) (n v : Nat), v < 16 ^ n → (hexN v n).length = n ∧ unhex lower (hexN v n) = some v

/-- R162, R163: an encoded frame has the stated length, its type byte is `'t'` or `'T'`, and every other byte is one
of the sixteen uppercase hex digits. The spec marks R163 as derived. -/
def Obligations.EncodedFrameIsUppercaseHex : Prop :=
  ∀ f : Frame,
    encodeFrame f true = typeByte (frameKind f) :: encodeFrame f false ∧
    (encodeFrame f false).length = idDigits (frameKind f) + 1 + 2 * f.data.length ∧
    (encodeFrame f true).length ≤ 26 ∧ (∀ b ∈ encodeFrame f false, b ∈ hexDigits)

/-- R169: decoding an encoded frame gives it back, with the type byte off or cut off; and the type byte is the command
byte of the variant that decodes it. -/
def Obligations.FrameCodecRoundTrip : Prop :=
  ∀ (lower : Bool) (f : Frame),
    decodeFrame lower (kindVariant (frameKind f)) (encodeFrame f false) = some f ∧
    encodeFrame f true = [(kindVariant (frameKind f)).byte] ++ encodeFrame f false ∧
    decodeFrame lower (kindVariant (frameKind f)) ((encodeFrame f true).drop 1) = some f

/-- R170: re-encoding a decoded frame gives the argument bytes with `'a'`..`'f'` replaced by `'A'`..`'F'`; so an
argument with no such byte is given back as it is, and decoding is injective up to letter case. The spec marks R170 as
derived. -/
def Obligations.DecodeThenEncodeUppercases : Prop :=
  ∀ (lower : Bool) (v : Variant) (arg : List Byte) (f : Frame), decodeFrame lower v arg = some f →
    encodeFrame f false = arg.map upperHex ∧
    ((∀ b ∈ arg, ¬ (0x61 ≤ b.toNat ∧ b.toNat ≤ 0x66)) → encodeFrame f false = arg) ∧
    ∀ arg' : List Byte, decodeFrame lower v arg' = some f → arg'.map upperHex = arg.map upperHex

/-- R90, R165 to R167: decoding returns the frame `f` exactly when the variant is that of its kind, the length is
exact, the identifier digits are hex and read as its identifier, the length digit reads as its length, and each pair
of data digits reads as its data byte. (That the identifier is within its limit and the length at most 8 is in the
type of `f`.) Checks (e) to (h) are the spec's own decisions D15 and D16; that lowercase digits are taken or not by a
parameter is decision D14. -/
def Obligations.DecodeAcceptsExactlyWellFormedArguments : Prop :=
  ∀ (lower : Bool) (v : Variant) (arg : List Byte) (f : Frame),
    decodeFrame lower v arg = some f ↔
      v = kindVariant (frameKind f) ∧
      arg.length = idDigits (frameKind f) + 1 + 2 * f.data.length ∧
      unhex lower (arg.take (idDigits (frameKind f))) = some (frameIdNumber f) ∧
      hexVal lower (arg.getD (idDigits (frameKind f)) 0) = some (BitVec.ofNat 4 f.data.length) ∧
      ∀ j : Nat, j < f.data.length → ∃ h l : Nibble,
        hexVal lower (arg.getD (idDigits (frameKind f) + 1 + 2 * j) 0) = some h ∧
        hexVal lower (arg.getD (idDigits (frameKind f) + 2 + 2 * j) 0) = some l ∧
        (f.data.getD j 0).toNat = 16 * h.toNat + l.toNat

/-! ### Lines and commands (spec/30_encoding.md, spec/43_parser_dispatch.md) -/

/-- R84: lines written out byte by byte decode to the command they stand for, one for every row of the table. In it
the names of `r`, `R`, `M`, `m`, and which of each pair takes which name, are the spec's general knowledge K6
(assumption log 20, PRESUMED). -/
def Obligations.WrittenOutLinesDecode : Prop :=
  parse Config.referenceA [0x53, 0x34] = .ok (.setup [0x34]) ∧
  parse Config.referenceA [0x73, 0x30, 0x33, 0x31, 0x43] = .ok (.setupWithBtr [0x30, 0x33, 0x31, 0x43]) ∧
  parse Config.referenceA [0x4F] = .ok (.openChannel []) ∧
  parse Config.referenceA [0x43] = .ok (.closeChannel []) ∧
  parse Config.referenceA [0x74, 0x31, 0x32, 0x33, 0x30] = .ok (.transmitFrame [0x31, 0x32, 0x33, 0x30]) ∧
  parse Config.referenceA [0x54, 0x31, 0x32, 0x33, 0x30] = .ok (.transmitExtendedFrame [0x31, 0x32, 0x33, 0x30]) ∧
  parse Config.referenceA [0x72] = .ok (.transmitRtrFrame []) ∧
  parse Config.referenceA [0x52] = .ok (.transmitExtendedRtrFrame []) ∧
  parse Config.referenceA [0x46] = .ok (.readStatusFlags []) ∧
  parse Config.referenceA [0x4D] = .ok (.setAcceptanceCode []) ∧
  parse Config.referenceA [0x6D] = .ok (.setAcceptanceMask []) ∧
  parse Config.referenceA [0x56] = .ok (.getVersion []) ∧
  parse Config.referenceA [0x4E] = .ok (.getSerialNumber []) ∧
  parse Config.referenceA [0x5A, 0x31] = .ok (.enableTimeStamps [0x31]) ∧
  parse Config.referenceA [0x6F] = .error (.unknownCommand 0x6F) ∧ parse Config.referenceA [] = .error .emptyLine

/-- R81, R82, R191: every well-formed command's line decodes to it and holds no terminator; and a line decodes only to
the command whose line it is, with the arguments within the bound. What the bound counts is the spec's own decision
D6. In the alphabet the names of `r`, `R`, `M`, `m`, and which of each pair takes which name, are the spec's general
knowledge K6 (assumption log 20, PRESUMED). -/
def Obligations.ParseAndEncodeAgree : Prop :=
  (∀ (c : Config) (i : Instr), i.WellFormed c → parse c (encode i) = .ok i ∧ CR ∉ encode i) ∧
  ∀ (c : Config) (line : List Byte) (i : Instr), parse c line = .ok i → encode i = line ∧ i.ArgFits c

/-- R94: a line is rejected exactly when it is empty, or its first byte is none of the fourteen, or it has more
argument bytes than the bound; and every rejection is `InvalidCommand`. What the bound counts (R82) is the spec's own
decision D6. -/
def Obligations.ParseRejectsExactlyIllegalLines : Prop :=
  (∀ (c : Config) (line : List Byte), (∃ e, parse c line = .error e) ↔
    line = [] ∨
    (∃ b arg, line = b :: arg ∧ b ∉ ([0x53, 0x73, 0x4F, 0x43, 0x74, 0x54, 0x72, 0x52, 0x46, 0x4D, 0x6D, 0x56,
      0x4E, 0x5A] : List Byte)) ∨
    (∃ b arg, line = b :: arg ∧ c.cmdArgCap < arg.length)) ∧
  ∀ e : DecodeError, e.kind = .invalidCommand

/-! ### The bit-timing resolver (spec/40_bit_timing.md) -/

/-- R123, R130: a timing returned is exact, its prescaler in range, its sample point within 75 % to 87.5 %; and an
exact prescaler in range under `SamplePointOk` is the one returned. (R130's converse needs a clock above 0: R123
rejects clock 0.) The fixed segments and the included ends are the spec's own decision D25. The spec marks R130 as
derived. The sample point's formula `(1 + seg1) / (1 + seg1 + seg2)` and `Q = 1 + SEG1 + SEG2` are its general
knowledge K5 and K4 (R121, R124; assumption log 20, PRESUMED). -/
def Obligations.ResolveIsExactDivision : Prop :=
  ∀ (c : Config) (clockHz bitrate : Nat), c.q = 1 + c.seg1.toNat + c.seg2.toNat →
    (∀ t, resolve c clockHz bitrate = some t →
      t.prescaler.toNat * (1 + t.seg1.toNat + t.seg2.toNat) * bitrate = clockHz ∧
      1 ≤ t.prescaler.toNat ∧ t.prescaler.toNat ≤ c.prescalerMax.toNat ∧
      3 * (1 + t.seg1.toNat + t.seg2.toNat) ≤ 4 * (1 + t.seg1.toNat) ∧
      8 * (1 + t.seg1.toNat) ≤ 7 * (1 + t.seg1.toNat + t.seg2.toNat)) ∧
    (∀ p, 1 ≤ p → p ≤ c.prescalerMax.toNat → 0 < clockHz → p * c.q * bitrate = clockHz → SamplePointOk c →
      resolve c clockHz bitrate =
        some { prescaler := BitVec.ofNat 16 p, seg1 := c.seg1, seg2 := c.seg2, sjw := c.sjw })

/-- R128: if 500 000 and 800 000 resolve then so does 1 000 000; so with 500 000 and 800 000 in the table the
documented configuration is impossible, and with 750 000 at index 7 it is possible (reference configuration B). The
spec marks R128 as derived. -/
def Obligations.EightHundredKilobitForcesOneMegabit : Prop :=
  (∀ (c : Config) (clockHz : Nat), (resolve c clockHz 500000).isSome = true → (resolve c clockHz 800000).isSome = true →
    (resolve c clockHz 1000000).isSome = true) ∧
  (∀ (c : Config) (i j : Fin 9), i.val < 8 → j.val < 8 → bitrateHz c i = 500000 → bitrateHz c j = 800000 →
    ¬ DocumentedConfig c) ∧
  Config.referenceB.middleHz.hz7 = 750000 ∧ DocumentedConfig Config.referenceB

/-- R129: the results under the two reference configurations. The first satisfies `TopUnrepresentable` only, the
second `DocumentedConfig`; where a timing is returned, `prescaler * 16 * bitrate = CLOCK_HZ`. These are examples the
spec marks as derived; the middle bitrates are its general knowledge K1 (assumption log 20). -/
def Obligations.ReferenceTimings : Prop :=
  timingTable Config.referenceA =
    [some ⟨50, 13, 2, 1⟩, some ⟨25, 13, 2, 1⟩, some ⟨10, 13, 2, 1⟩, some ⟨5, 13, 2, 1⟩, some ⟨4, 13, 2, 1⟩,
      some ⟨2, 13, 2, 1⟩, some ⟨1, 13, 2, 1⟩, none, none] ∧
  timingTable Config.referenceB =
    [some ⟨150, 13, 2, 1⟩, some ⟨75, 13, 2, 1⟩, some ⟨30, 13, 2, 1⟩, some ⟨15, 13, 2, 1⟩, some ⟨12, 13, 2, 1⟩,
      some ⟨6, 13, 2, 1⟩, some ⟨3, 13, 2, 1⟩, some ⟨2, 13, 2, 1⟩, none] ∧
  TopUnrepresentable Config.referenceA ∧ ¬ OthersRepresentable Config.referenceA ∧ DocumentedConfig Config.referenceB ∧
  ∀ i : Fin 9,
    (∀ t ∈ resolveIndex Config.referenceA i, t.prescaler.toNat * 16 * bitrateHz Config.referenceA i = 8000000) ∧
    (∀ t ∈ resolveIndex Config.referenceB i, t.prescaler.toNat * 16 * bitrateHz Config.referenceB i = 24000000)

/-! ### Channel commands (spec/44_cmd_channel.md) -/

/-- R221, R222: `S` with a digit of an index that resolves, on a Closed channel or under `reconfigure_and_close`,
stores the index, leaves the channel Closed, answers a bare terminator, changes nothing else; `timing` is then the
timing of that index. Bytes after the digit are ignored. The policy for an Open channel, the empty response and the
ignored bytes are the spec's own decisions D19, D20, D17. -/
def Obligations.SetupSelectsBitrate : Prop :=
  ∀ (s : State) (i : Fin 9) (a : Byte) (rest : List Byte) (t : TimingConfig),
    a.toNat = 0x30 + i.val → (s.channelState = .closed ∨ s.cfg.sWhileOpen = .reconfigureAndClose) →
    resolve s.cfg s.cfg.clockHz (bitrateHz s.cfg i) = some t → s.Room 1 →
    ∃ s', exec (.setup (a :: rest)) s = .next s' ∧
      s' = { s with bitrate := some i, channelState := .closed, txQueue := s.txQueue ++ [CR] } ∧
      timingOut s' = some t

/-- R221, R222, R125: `S` with an absent or wrong digit, or on an Open channel under `reject`, or with an index that
does not resolve, queues the bell and changes nothing else. The policy for an Open channel and the error of an absent
digit are the spec's own decisions D19, D17; that a failed `S` leaves everything as it was is decision D20. -/
def Obligations.SetupFailureRingsBell : Prop :=
  ∀ (s : State) (arg : List Byte),
    ((∀ a rest, arg = a :: rest → a.toNat < 0x30 ∨ 0x38 < a.toNat) ∨
      (s.channelState = .opened ∧ s.cfg.sWhileOpen = .reject) ∨
      (∃ (i : Fin 9) (a : Byte) (rest : List Byte), arg = a :: rest ∧ a.toNat = 0x30 + i.val ∧
        resolve s.cfg s.cfg.clockHz (bitrateHz s.cfg i) = none)) →
    s.Room 1 → exec (.setup arg) s = .next { s with txQueue := s.txQueue ++ [BELL] }

/-- R221 with R10: where 1 Mbit/s is unrepresentable, `S8` queues the bell in every channel state and under either
policy, and changes nothing else. The two policies for an Open channel and what a failed `S` leaves are the spec's own
decisions D19, D20. -/
def Obligations.UnsupportedTopBitrateRingsBell : Prop :=
  ∀ (s : State) (rest : List Byte), TopUnrepresentable s.cfg → s.Room 1 →
    exec (.setup (0x38 :: rest)) s = .next { s with txQueue := s.txQueue ++ [BELL] }

/-- R224: `O` opens the channel, whatever its state and with or without a bitrate, answers a bare terminator and
changes nothing else; arguments are ignored; `can_enabled` is then 1. The bare terminator (R92) and the ignored
arguments (R83) are the spec's own decisions D20, D17 (assumption log 14). -/
def Obligations.OpenCommandOpensChannel : Prop :=
  ∀ (s : State) (arg : List Byte), Spells s.cfg 0x4F .openChannel ∧ (s.Room 1 →
    ∃ s', exec (.openChannel arg) s = .next s' ∧
      s' = { s with channelState := .opened, txQueue := s.txQueue ++ [CR] } ∧ canEnabled s' = 1)

/-- R225: `C` closes the channel, whatever its state, answers a bare terminator and changes nothing else (not the
bitrate, the time-stamp bit, the flags or `rx_queue`); arguments are ignored; `can_enabled` is then 0. The bare
terminator (R92) and the ignored arguments (R83) are the spec's own decisions D20, D17 (assumption log 14). -/
def Obligations.CloseCommandClosesChannel : Prop :=
  ∀ (s : State) (arg : List Byte), Spells s.cfg 0x43 .closeChannel ∧ (s.Room 1 →
    ∃ s', exec (.closeChannel arg) s = .next s' ∧
      s' = { s with channelState := .closed, txQueue := s.txQueue ++ [CR] } ∧ canEnabled s' = 0)

/-- R223, R245, R246, R262, R263 with R82, R89: `s`, `r`, `R`, `M`, `m` always fail with `NotImplemented`, whatever
their arguments and the state: where the bell fits it is queued, nothing else changes and no frame is offered. A line
within the bound decodes to its command and one over it fails in `parse`; what the bound counts and that `parse`
rejects is the spec's own decision D6 (assumption log 15). In the pairs of letter and command the names of `r`, `R`,
`M`, `m`, and which of each pair takes which name, are the spec's general knowledge K6 (assumption log 20, PRESUMED).
-/
def Obligations.UnimplementedCommandsRingBell : Prop :=
  ∀ (s : State) (arg : List Byte) (b : Byte) (i : Instr),
    (b, i) ∈ ([(0x73, .setupWithBtr arg), (0x72, .transmitRtrFrame arg), (0x52, .transmitExtendedRtrFrame arg),
      (0x4D, .setAcceptanceCode arg), (0x6D, .setAcceptanceMask arg)] : List (Byte × Instr)) →
    (arg.length ≤ s.cfg.cmdArgCap → parse s.cfg (b :: arg) = .ok i) ∧
    (s.cfg.cmdArgCap < arg.length → parse s.cfg (b :: arg) = .error .argumentTooLong) ∧
    run i s = (s, .error .notImplemented) ∧
    (s.Room 1 → exec i s = .next { s with txQueue := s.txQueue ++ [BELL] })

/-! ### Transmit commands (spec/45_cmd_transmit.md) -/

/-- R241, R242: `t` and `T` with valid arguments, the controller answering `Ok`: the frame is offered once, whatever
the channel state, the echo is its re-encoding and the terminator, and nothing else changes. That the channel state is
not tested (R240, R244) is the spec's own decision D21. -/
def Obligations.AcceptedFrameIsEchoed : Prop :=
  ∀ (s : State) (arg : List Byte) (f : Frame), nextTxAnswer s = .ok → s.Room ((encodeFrame f true).length + 1) →
    (decodeFrame s.cfg.acceptLowercaseHex .transmitFrame arg = some f →
      exec (.transmitFrame arg) s = .next { s with
        canReq := s.canReq ++ [(f, .ok)], txAnswers := s.txAnswers.tail
        txQueue := s.txQueue ++ (encodeFrame f true ++ [CR]) }) ∧
    (decodeFrame s.cfg.acceptLowercaseHex .transmitExtendedFrame arg = some f →
      exec (.transmitExtendedFrame arg) s = .next { s with
        canReq := s.canReq ++ [(f, .ok)], txAnswers := s.txAnswers.tail
        txQueue := s.txQueue ++ (encodeFrame f true ++ [CR]) })

/-- R241 to R243: the controller answering `BufferOverrun`: the frame was offered and is recorded with its answer,
there is no echo, the bell is queued and nothing else changes. That the channel state is not tested (R240, R244) is
the spec's own decision D21. -/
def Obligations.RefusedFrameRingsBell : Prop :=
  ∀ (s : State) (arg : List Byte) (f : Frame), nextTxAnswer s = .bufferOverrun → s.Room 1 →
    (decodeFrame s.cfg.acceptLowercaseHex .transmitFrame arg = some f →
      exec (.transmitFrame arg) s = .next { s with
        canReq := s.canReq ++ [(f, .bufferOverrun)], txAnswers := s.txAnswers.tail
        txQueue := s.txQueue ++ [BELL] }) ∧
    (decodeFrame s.cfg.acceptLowercaseHex .transmitExtendedFrame arg = some f →
      exec (.transmitExtendedFrame arg) s = .next { s with
        canReq := s.canReq ++ [(f, .bufferOverrun)], txAnswers := s.txAnswers.tail
        txQueue := s.txQueue ++ [BELL] })

/-- R241 to R243: arguments that do not decode: no frame is offered, the bell is queued and nothing else changes.
Which arguments do not decode rests on the spec's own decisions D14, D15, D16. -/
def Obligations.MalformedTransmitOffersNothing : Prop :=
  ∀ (s : State) (arg : List Byte), s.Room 1 →
    (decodeFrame s.cfg.acceptLowercaseHex .transmitFrame arg = none →
      exec (.transmitFrame arg) s = .next { s with txQueue := s.txQueue ++ [BELL] }) ∧
    (decodeFrame s.cfg.acceptLowercaseHex .transmitExtendedFrame arg = none →
      exec (.transmitExtendedFrame arg) s = .next { s with txQueue := s.txQueue ++ [BELL] })

/-- R169, R171, R241, R242, R291: for every frame, a step at the terminator of its encoded line offers exactly that
frame and, the controller accepting, queues exactly that line and the terminator. That the channel state is not tested
(R240, R244) is the spec's own decision D21. -/
def Obligations.EveryFrameCanBeSent : Prop :=
  ∀ (s : State) (f : Frame) (es : List Event), s.cfg.Valid → s.events = .rxByte CR :: es →
    s.rxQueue = encodeFrame f true → nextTxAnswer s = .ok → s.Room ((encodeFrame f true).length + 1) →
    step s = .next { s with
      events := es, rxQueue := [], canReq := s.canReq ++ [(f, .ok)], txAnswers := s.txAnswers.tail
      txQueue := s.txQueue ++ (encodeFrame f true ++ [CR]) }

/-! ### Information commands (spec/46_cmd_info.md) -/

/-- R261: `F` answers `'F'` and the status byte as two uppercase hex digits, and clears nothing; where the five flags
without a writer are 0 the response is one of `F00`, `F01`, `F02`, `F03`. A response that does not fit sets the flag
after it was formed. The values rest on the bit positions (R25), the fate of a response that does not fit (R201) and
the ignored arguments (R83), the spec's own decisions D9, D11, D17 (assumption log 14). -/
def Obligations.StatusCommandReadsFlags : Prop :=
  ∀ (s : State) (arg : List Byte), Spells s.cfg 0x46 .readStatusFlags ∧ (s.Room 4 →
    exec (.readStatusFlags arg) s = .next { s with
      txQueue := s.txQueue ++ ([0x46] ++ hex2 (statusByte s.flags) ++ [CR]) }) ∧
    (¬ s.Room 4 → s.txQueue.length ≤ s.cfg.txCap →
      exec (.readStatusFlags arg) s = .next { s with flags := { s.flags with txQueueFull := true } }) ∧
    (s.Inv → [0x46] ++ hex2 (statusByte s.flags) ∈
      ([[0x46, 0x30, 0x30], [0x46, 0x30, 0x31], [0x46, 0x30, 0x32], [0x46, 0x30, 0x33]] : List (List Byte)))

/-- R264: `V` answers `'V'` and the two version bytes as uppercase hex, and changes nothing; with 0xFA and 0x01 the
reply is `"VFA01\r"`. That bytes after `V` are ignored (R83) is the spec's own decision D17 (assumption log 14). -/
def Obligations.VersionCommandAnswersVersion : Prop :=
  ∀ (s : State) (arg : List Byte), Spells s.cfg 0x56 .getVersion ∧ (s.Room 6 →
    exec (.getVersion arg) s = .next { s with
      txQueue := s.txQueue ++ ([0x56] ++ hex2 s.hardwareVersion ++ hex2 s.softwareVersion ++ [CR]) }) ∧
    (s.hardwareVersion = 0xFA → s.softwareVersion = 0x01 →
      [0x56] ++ hex2 s.hardwareVersion ++ hex2 s.softwareVersion ++ [CR] =
        ([0x56, 0x46, 0x41, 0x30, 0x31, 0x0D] : List Byte))

/-- R265: `N` answers `'N'` and the four serial-number bytes raw, index 0 first, and changes nothing. That bytes after
`N` are ignored (R83) is the spec's own decision D17 (assumption log 14). -/
def Obligations.SerialNumberCommandAnswersRawBytes : Prop :=
  ∀ (s : State) (arg : List Byte), Spells s.cfg 0x4E .getSerialNumber ∧ (s.Room 6 →
    exec (.getSerialNumber arg) s = .next { s with
      txQueue := s.txQueue ++
        [0x4E, s.serialNumber.b0, s.serialNumber.b1, s.serialNumber.b2, s.serialNumber.b3, 0x0D] })

/-- R266: `Z0` clears and `Z1` sets the bit, whatever it was and in either channel state, with a bare terminator; any
other or absent argument queues the bell and changes nothing. Bytes after the first are ignored. That it sets and does
not invert is the spec's own decision D18. The ignored bytes and the bell for an absent argument (R83, R86) are
decision D17, the bare terminator (R92) is decision D20 (assumption log 14). -/
def Obligations.TimeStampCommandSetsBit : Prop :=
  ∀ (s : State) (rest : List Byte), Spells s.cfg 0x5A .enableTimeStamps ∧ (s.Room 1 →
    exec (.enableTimeStamps (0x30 :: rest)) s = .next { s with timestamps := false, txQueue := s.txQueue ++ [CR] } ∧
    exec (.enableTimeStamps (0x31 :: rest)) s = .next { s with timestamps := true, txQueue := s.txQueue ++ [CR] } ∧
    exec (.enableTimeStamps []) s = .next { s with txQueue := s.txQueue ++ [BELL] } ∧
    ∀ a : Byte, a ≠ 0x30 → a ≠ 0x31 →
      exec (.enableTimeStamps (a :: rest)) s = .next { s with txQueue := s.txQueue ++ [BELL] })

/-! ### The response path, for all commands (spec/43_parser_dispatch.md R194 to R205) -/

/-- R199, R200: every command completes from every state in which its reply line fits `tx_queue`: its handler's
effects stand, and the line is appended whole: the response and the terminator, or the single bell for every error
kind and nothing after it. A line that does not fit is `UnfittingReplyIsDroppedAndFlagged`. -/
def Obligations.EveryCommandAnswersOneWholeReply : Prop :=
  ∀ (i : Instr) (s : State), s.Room (replyLine (run i s).2).length →
    exec i s = .next { (run i s).1 with txQueue := s.txQueue ++ replyLine (run i s).2 }

/-- R201: a reply line that does not fit is dropped whole and the flag set; no bell replaces it, and what the handler
did stays done. The spec's own decision D11. -/
def Obligations.UnfittingReplyIsDroppedAndFlagged : Prop :=
  ∀ (i : Instr) (s : State), ¬ s.Room (replyLine (run i s).2).length →
    s.txQueue.length ≤ s.cfg.txCap →
    exec i s = .next { (run i s).1 with flags := { s.flags with txQueueFull := true } } ∧
    (run i s).1.txQueue = s.txQueue

/-- R203, R205: every reply line and every received-frame line has 1 to 27 bytes, so any of them fits an empty
`tx_queue` of valid parameters. The spec marks the bounds as derived. -/
def Obligations.RepliesHaveOneTo27Bytes : Prop :=
  (∀ (i : Instr) (s : State), 1 ≤ (replyLine (run i s).2).length ∧ (replyLine (run i s).2).length ≤ 27 ∧
    (s.cfg.Valid → s.txQueue = [] → s.Room (replyLine (run i s).2).length)) ∧
  ∀ f : Frame, 6 ≤ (encodeFrame f true ++ [CR]).length ∧ (encodeFrame f true ++ [CR]).length ≤ 27

/-- R196, R194: a handler that fails has changed no state, except that a transmit refused with `BufferOverrun` was
seen by the controller; and no handler fails with `QueueFull`. That a failing handler has written nothing is the
spec's own decision D20 and derived rule R196. -/
def Obligations.FailingHandlerChangesNothing : Prop :=
  ∀ (i : Instr) (s : State) (k : ErrorKind), (run i s).2 = .error k →
    k ≠ .queueFull ∧
    ((run i s).1 = s ∨
      (k = .bufferOverrun ∧ (∃ arg, i = .transmitFrame arg ∨ i = .transmitExtendedFrame arg) ∧
        ∃ f, (run i s).1 = { s with canReq := s.canReq ++ [(f, .bufferOverrun)], txAnswers := s.txAnswers.tail }))

/-- R223, R240, R245, R246, R260 to R265 (frame): `s`, `r`, `R`, `M`, `m`, `F`, `V`, `N` change no register: beside
`CommandFrame`, the channel state, bitrate, time-stamp bit, the requests made and the answers to come are kept. -/
def Obligations.ReadOnlyCommandsChangeNoRegister : Prop :=
  ∀ (s t : State) (arg : List Byte) (i : Instr),
    i ∈ ([.setupWithBtr arg, .transmitRtrFrame arg, .transmitExtendedRtrFrame arg, .setAcceptanceCode arg,
      .setAcceptanceMask arg, .readStatusFlags arg, .getVersion arg, .getSerialNumber arg] : List Instr) →
    exec i s = .next t →
    CommandFrame s t ∧ t.channelState = s.channelState ∧ t.bitrate = s.bitrate ∧ t.timestamps = s.timestamps ∧
    t.canReq = s.canReq ∧ t.txAnswers = s.txAnswers

/-- R220 to R225 (frame): beside `CommandFrame`, `S`, `O` and `C` keep the time-stamp bit, the requests made and the
answers to come; `O` and `C` keep the bitrate too; `S` writes only the bitrate and, closing it, the channel state. The
policy for `S` on an Open channel is the spec's own decision D19. -/
def Obligations.ChannelCommandsChangeOnlyChannelRegisters : Prop :=
  ∀ (s t : State) (arg : List Byte),
    (∀ i, i ∈ ([.setup arg, .openChannel arg, .closeChannel arg] : List Instr) → exec i s = .next t →
      CommandFrame s t ∧ t.timestamps = s.timestamps ∧ t.canReq = s.canReq ∧ t.txAnswers = s.txAnswers) ∧
    (exec (.openChannel arg) s = .next t → t.bitrate = s.bitrate) ∧
    (exec (.closeChannel arg) s = .next t → t.bitrate = s.bitrate) ∧
    (exec (.setup arg) s = .next t → t.channelState = s.channelState ∨ t.channelState = .closed)

/-- R240 to R244 (frame): beside `CommandFrame`, `t` and `T` keep the channel state, bitrate and time-stamp bit; they
make at most one request, of the frame their arguments decode to. That the channel state is not tested is the spec's
own decision D21. -/
def Obligations.TransmitCommandsChangeNoRegister : Prop :=
  ∀ (s t : State) (arg : List Byte) (i : Instr),
    i ∈ ([.transmitFrame arg, .transmitExtendedFrame arg] : List Instr) → exec i s = .next t →
    CommandFrame s t ∧ t.channelState = s.channelState ∧ t.bitrate = s.bitrate ∧ t.timestamps = s.timestamps ∧
    ((t.canReq = s.canReq ∧ t.txAnswers = s.txAnswers) ∨
      ∃ f, decodeFrame s.cfg.acceptLowercaseHex i.variant arg = some f ∧
        t.canReq = s.canReq ++ [(f, nextTxAnswer s)] ∧ t.txAnswers = s.txAnswers.tail)

/-- R260, R266 (frame): beside `CommandFrame`, `Z` keeps the channel state, the bitrate, the requests and the answers. -/
def Obligations.TimeStampCommandChangesOnlyItsBit : Prop :=
  ∀ (s t : State) (arg : List Byte), exec (.enableTimeStamps arg) s = .next t →
    CommandFrame s t ∧ t.channelState = s.channelState ∧ t.bitrate = s.bitrate ∧
    t.canReq = s.canReq ∧ t.txAnswers = s.txAnswers

/-! ### The agents' steps (spec/47_engine.md, spec/48_agents.md, spec/70_reset_and_hazards.md) -/

/-- R291, R292: at a terminator, when the accumulated line decodes to a command, the step is `exec` of that command at the
state with the event consumed and the line drained. -/
def Obligations.StepRunsTheDecodedCommand : Prop :=
  ∀ (s : State) (es : List Event) (i : Instr), s.cfg.Valid → s.events = .rxByte CR :: es →
    parse s.cfg s.rxQueue = .ok i → step s = exec i { s with events := es, rxQueue := [] }

/-- The fetch of one table word: with the word's line accumulated and its terminator next, the step is `exec` of the
command the decoder reads from it.  (The argument bound of `decodeTableWord` is 32, assumption log 11.) -/
def Obligations.FetchedWordRunsNext : Prop :=
  ∀ (s : State) (nbits w : Nat) (i : Instr), s.cfg.Valid → s.cfg.cmdArgCap = 32 →
    decodeTableWord nbits w = some i → step (s.withFetchWord nbits w) = exec i { s with rxQueue := [] }

/-- R94, R292, R201: at a terminator, when the accumulated line is illegal, the line is drained and the bell queued,
or, where not even the bell fits, the flag set; nothing else changes. That a bell which does not fit is dropped and
flagged (R201) is the spec's own decision D11 (assumption log 14). -/
def Obligations.IllegalLineRingsBell : Prop :=
  ∀ (s : State) (es : List Event) (e : DecodeError), s.cfg.Valid → s.events = .rxByte CR :: es →
    parse s.cfg s.rxQueue = .error e →
    (s.Room 1 → step s = .next { s with events := es, rxQueue := [], txQueue := s.txQueue ++ [BELL] }) ∧
    (¬ s.Room 1 → step s = .next { s with
      events := es, rxQueue := [], flags := { s.flags with txQueueFull := true } })

/-- R293, R335 (and R294): a byte other than the terminator is appended to the line in progress if there is room; else
it is dropped, the flag is set and nothing is queued for the host. That nothing is queued for the host (R294) is the
spec's own decision D12 (assumption log 14). -/
def Obligations.ByteIsAccumulatedOrDropped : Prop :=
  ∀ (s : State) (es : List Event) (b : Byte), s.cfg.Valid → s.events = .rxByte b :: es → b ≠ CR →
    (s.rxQueue.length < s.cfg.rxCap → step s = .next { s with events := es, rxQueue := s.rxQueue ++ [b] }) ∧
    (s.rxQueue.length = s.cfg.rxCap → step s = .next { s with
      events := es, flags := { s.flags with rxQueueFull := true } })

/-- R290 to R292, R298: a line sent byte by byte to an empty accumulator, then its terminator, is executed whole and once,
in arrival order, with no effect before the terminator. -/
def Obligations.WholeLineRunsAtItsTerminator : Prop :=
  ∀ (s : State) (line : List Byte) (es : List Event), s.cfg.Valid → s.rxQueue = [] → CR ∉ line →
    line.length ≤ s.cfg.rxCap → s.events = sendLine line ++ es →
    Host.Core.run Sys2Proof.core line.length s = .next { s with events := .rxByte CR :: es, rxQueue := line } ∧
    Host.Core.run Sys2Proof.core (line.length + 1) s = executeLine line { s with events := es }

/-- R293 to R297: a line longer than `RX_CAP`, sent to an empty accumulator, never runs: after its terminator the flag
is set, one bell is queued, the accumulator is empty and nothing else has changed. That no dropped byte earns a bell
of its own (R294) is the spec's own decision D12 (assumption log 14); the spec marks R296 as derived. -/
def Obligations.OverlongLineNeverRuns : Prop :=
  ∀ (s : State) (line : List Byte) (es : List Event), s.cfg.Valid → s.rxQueue = [] → CR ∉ line →
    s.cfg.rxCap < line.length → s.events = sendLine line ++ es → s.Room 1 →
    Host.Core.run Sys2Proof.core (line.length + 1) s = .next { s with
      events := es, flags := { s.flags with rxQueueFull := true }, txQueue := s.txQueue ++ [BELL] }

/-- R313: a flush step hands the oldest byte to the serial transmitter, and changes nothing else. One byte per step is
the spec's own decision D28. -/
def Obligations.FlushHandsOverOldestByte : Prop :=
  ∀ (s : State) (es : List Event) (b : Byte) (q : List Byte), s.cfg.Valid → s.events = .flush :: es →
    s.txQueue = b :: q → step s = .next { s with events := es, txQueue := q, serOut := s.serOut ++ [b] }

/-- R317: with only flushes and empty polls to come, in any order, and at least as many flushes as bytes queued,
running them hands every byte over in order and reaches quiescence (a flush left over finds the queue empty,
assumption log 6); and in a quiescent state a step changes nothing but the schedule and the count of polls, and the
state stays quiescent. What a quiescent state is, is the spec's own decision D2. -/
def Obligations.FlushingReachesQuiescence : Prop :=
  (∀ s : State, s.cfg.Valid → (∀ e ∈ s.events, e.Silent) → s.txQueue.length ≤ s.events.count .flush →
    ∃ t, Host.Core.run Sys2Proof.core s.events.length s = .next t ∧
      t = { s with
        events := [], txQueue := [], serOut := s.serOut ++ s.txQueue
        canPolls := s.canPolls + s.events.count (.canPoll none) } ∧ t.Quiescent) ∧
  ∀ s : State, s.cfg.Valid → s.Quiescent →
    ∃ t, step s = .next t ∧ t = { s with events := s.events.tail, canPolls := t.canPolls } ∧ t.Quiescent

/-- R312, R145: a poll answered `empty` changes nothing (but the count of polls); one answered with a frame queues its
encoded line and the terminator, or, where the line does not fit, drops it whole and sets the flag. The line has 6 to
27 bytes. The type byte, the terminator and the dropping are the spec's own decisions D22, D11; that the poll does not
depend on the channel state is decision D24. -/
def Obligations.PollForwardsReceivedFrame : Prop :=
  ∀ (s : State) (es : List Event), s.cfg.Valid →
    (s.events = .canPoll none :: es → step s = .next { s with events := es, canPolls := s.canPolls + 1 }) ∧
    ∀ f : Frame, s.events = .canPoll (some f) :: es →
      (6 ≤ (encodeFrame f true).length + 1 ∧ (encodeFrame f true).length + 1 ≤ 27) ∧
      (s.Room ((encodeFrame f true).length + 1) → step s = .next { s with
        events := es, canPolls := s.canPolls + 1, txQueue := s.txQueue ++ (encodeFrame f true ++ [CR]) }) ∧
      (¬ s.Room ((encodeFrame f true).length + 1) → step s = .next { s with
        events := es, canPolls := s.canPolls + 1, flags := { s.flags with txQueueFull := true } })

/-- R370: a reset step gives every register its reset value and empties both queues; the traces stay. The empty queues
are the spec's own decision D8. -/
def Obligations.ResetStepRestoresResetValues : Prop :=
  ∀ (s : State) (es : List Event), s.cfg.Valid → s.events = .reset :: es →
    ∃ t, step s = .next t ∧
      t = { State.initial s.cfg es s.txAnswers with
        serOut := s.serOut, canReq := s.canReq, canPolls := s.canPolls } ∧
      t.channelState = .closed ∧ canEnabled t = 0 ∧ t.bitrate = none ∧ timingOut t = none ∧
      t.flags = ⟨false, false, false, false, false, false, false⟩ ∧ t.timestamps = false ∧
      t.rxQueue = [] ∧ t.txQueue = [] ∧ t.engineState = .accumulating ∧
      t.hardwareVersion = s.cfg.hwVersion ∧ t.softwareVersion = s.cfg.swVersion ∧ t.serialNumber = s.cfg.serialNumber

/-- R21 (the reset column) and R28: what reset leaves, for any parameters and inputs; under the reference
configuration (the model's choice, assumption log 1) the version bytes are 0xFA and 0x01. The empty queues are the
spec's own decision D8. -/
def Obligations.ResetStateHoldsSpecValues : Prop :=
  (∀ (c : Config) (es : List Event) (as : List TxAnswer),
    (State.initial c es as).channelState = .closed ∧ (State.initial c es as).bitrate = none ∧
    statusByte (State.initial c es as).flags = 0 ∧ (State.initial c es as).timestamps = false ∧
    (State.initial c es as).hardwareVersion = c.hwVersion ∧ (State.initial c es as).softwareVersion = c.swVersion ∧
    (State.initial c es as).serialNumber = c.serialNumber ∧ (State.initial c es as).rxQueue = [] ∧
    (State.initial c es as).txQueue = [] ∧ (State.initial c es as).engineState = .accumulating) ∧
  State.reset = State.initial Config.referenceA [] [] ∧
  State.reset.hardwareVersion = 0xFA ∧ State.reset.softwareVersion = 0x01

/-! ### The whole machine -/

/-- The invariant holds right after reset, for every valid parameter record, and at `State.reset`. -/
def Obligations.ResetMeetsInvariant : Prop :=
  (∀ (c : Config) (es : List Event) (as : List TxAnswer), c.Valid → (State.initial c es as).Inv) ∧ State.reset.Inv

/-- R51, R52, R27, R226, R333: every step from a state that meets the invariant gives a state that meets it. The spec
marks the capacity of R51 as its own decision D7, and R27's five flags and R226 as derived. -/
def Obligations.EveryStepKeepsInvariant : Prop :=
  ∀ s t : State, s.Inv → step s = .next t → t.Inv

/-- R333 and spec/93_implementation_defined.md U19: a step of a machine with valid parameters always completes, whatever
the input; with parameters outside the constraints of R9 it is refused. -/
def Obligations.StepCompletesExactlyOnValidParameters : Prop :=
  ∀ s : State, (s.cfg.Valid → ∃ t, step s = .next t ∧ t.cfg = s.cfg) ∧
    (¬ s.cfg.Valid → step s = .refused .invalidParameters)

/-- R26, R27: no step but reset clears a flag, and no step sets any of the five flags without a writer. That the five
have no writer is R27's conclusion, which the spec marks as derived. -/
def Obligations.FlagsLatchUntilReset : Prop :=
  ∀ s t : State, step s = .next t → (∀ es, s.events ≠ .reset :: es) →
    FlagsKept s.flags t.flags ∧
    t.flags.errorWarning = s.flags.errorWarning ∧ t.flags.dataOverrun = s.flags.dataOverrun ∧
    t.flags.errorPassive = s.flags.errorPassive ∧ t.flags.arbitrationLost = s.flags.arbitrationLost ∧
    t.flags.busError = s.flags.busError

/-- R23, R24, R226: under `reject` only a reset, an `O` line or a `C` line moves the channel state; and only a reset
or an `S` line moves the bitrate. The policy is the spec's own decision D19, and the spec marks R226 as derived. -/
def Obligations.OnlyTheirCommandsMoveChannelAndBitrate : Prop :=
  ∀ s t : State, step s = .next t → (∀ es, s.events ≠ .reset :: es) →
    (s.cfg.sWhileOpen = .reject → t.channelState ≠ s.channelState →
      ∃ es arg, s.events = .rxByte CR :: es ∧
        ((s.rxQueue = 0x4F :: arg ∧ t.channelState = .opened) ∨
          (s.rxQueue = 0x43 :: arg ∧ t.channelState = .closed))) ∧
    (t.bitrate ≠ s.bitrate → ∃ es arg, s.events = .rxByte CR :: es ∧ s.rxQueue = 0x53 :: arg)

/-- R66 (a), R67, R58: along any run without a reset, what has been handed to the serial transmitter and what is
queued together are extended by whole lines only, in order: each a bell or a line closed by the terminator. That a
line is pushed whole is the spec's own decision D13. That a received-frame line is closed by the terminator (R93) is
decision D22, and that `S`, `O`, `C`, `Z` answer a bare terminator (R92) is decision D20 (assumption log 14). -/
def Obligations.OutputIsASequenceOfWholeLines : Prop :=
  ∀ (n : Nat) (s t : State), .reset ∉ s.events → Host.Core.run Sys2Proof.core n s = .next t →
    s.serOut <+: t.serOut ∧
    ∃ lines : List (List Byte), (∀ l ∈ lines, l.length ≤ 27 ∧ (l = [BELL] ∨ ∃ r, l = r ++ [CR])) ∧
      t.serOut ++ t.txQueue = s.serOut ++ s.txQueue ++ lines.flatten

/-- R66, R314: while a whole reply still fits, flushing a byte before or after an inbound byte gives the same state:
the host's output does not depend on that interleaving. Atomic steps in any order are the spec's own decision D2. -/
def Obligations.FlushCommutesWithReceive : Prop :=
  ∀ (s t : State) (b : Byte), s.txQueue ≠ [] → s.Room 27 → rxByte b s = .next t →
    rxByte b (flush s) = .next (flush t)

/-- R315: the poller touches only `tx_queue`, `tx_queue_full` and the poll count; the flusher only `tx_queue` and
`ser_out`; the receiver never touches `ser_out` or the poll count, and nothing changes the constant registers. The
spec marks R315 as derived. -/
def Obligations.AgentsTouchOnlyTheirState : Prop :=
  (∀ (s : State) (a : Option Frame), canPoll a s = { s with
    txQueue := (canPoll a s).txQueue, canPolls := s.canPolls + 1
    flags := { s.flags with txQueueFull := (canPoll a s).flags.txQueueFull } }) ∧
  (∀ s : State, flush s = { s with txQueue := (flush s).txQueue, serOut := (flush s).serOut }) ∧
  ∀ (s t : State) (b : Byte), rxByte b s = .next t →
    t.serOut = s.serOut ∧ t.canPolls = s.canPolls ∧ t.events = s.events ∧ t.hardwareVersion = s.hardwareVersion ∧
    t.softwareVersion = s.softwareVersion ∧ t.serialNumber = s.serialNumber ∧ t.cfg = s.cfg ∧
    s.txQueue <+: t.txQueue

/-- R30: nothing reads the time-stamp bit: a step of a state that differs only in it completes the same way with a
state that differs only in it. The spec's own decision D23. -/
def Obligations.TimeStampBitIsNeverObserved : Prop :=
  ∀ (s t : State) (v : Bool), step s = .next t → ∃ w, step { s with timestamps := v } = .next { t with timestamps := w }

/-- R314, R316, R317: of every execution without end, at whose instants an agent moves or none does, each finite
prefix is a run of `step` with that prefix's moves scheduled; and where the flusher is weakly fair and the outside is
silent from instant `k` on, an instant comes at which everything queued at `k` has been handed over in order and the
queue is empty, after which only the count of polls changes. The poller need not run at all. Atomic steps in any
order, weak fairness of `Flush` and quiescence are the spec's own decision D2; an agent moves only with valid parameters (assumption log 3). -/
def Obligations.FairExecutionsReachQuiescence : Prop :=
  ∀ (σ : Schedule) (x : Nat → State), Execution σ x →
    (∀ (n : Nat) (es : List Event),
      Host.Core.run Sys2Proof.core ((List.range n).filterMap σ).length
          { x 0 with events := (List.range n).filterMap σ ++ es } = .next { x n with events := es }) ∧
    ∀ k, WeaklyFair σ x → SilentFrom σ k →
      ∃ m, k ≤ m ∧ (x m).txQueue = [] ∧ (x m).serOut = (x k).serOut ++ (x k).txQueue ∧
        ∀ j, m ≤ j → x j = { x m with canPolls := (x j).canPolls }
end

