-- ==== Sys2Proof/Laws/Hex.lean ====
section
/-! SUPPORT. The small lemmas of the hex helpers and of the codec's parts. -/

namespace Sys2Proof.Machine

/-- Every digit written is one of the sixteen. -/
theorem hexChar_mem (n : Nibble) : hexChar n ∈ hexDigits := by revert n; decide

/-- A digit written reads back, whether or not lowercase is accepted. -/
@[simp] theorem hexVal_hexChar (lower : Bool) (n : Nibble) : hexVal lower (hexChar n) = some n := by
  revert lower n; decide

@[simp] theorem hex2_length (b : Byte) : (hex2 b).length = 2 := rfl

/-- The two nibbles of a byte, high first, give it back. -/
theorem nibbles_byte (b : Byte) :
    BitVec.ofNat 8 (16 * (b.extractLsb' 4 4).toNat + (b.extractLsb' 0 4).toNat) = b := by
  apply BitVec.eq_of_toNat_eq
  have := b.isLt
  simp [BitVec.extractLsb'_toNat, Nat.shiftRight_eq_div_pow]
  omega

@[simp] theorem hexN_length (v n : Nat) : (hexN v n).length = n := by
  induction n with
  | zero => rfl
  | succ n ih => simp [hexN, ih]

theorem hexN_mem (v n : Nat) : ∀ b ∈ hexN v n, b ∈ hexDigits := by
  induction n with
  | zero => simp [hexN]
  | succ n ih =>
    intro b hb
    rcases List.mem_cons.mp hb with rfl | hb
    · exact hexChar_mem _
    · exact ih b hb

@[simp] theorem hexData_length (ds : List Byte) : (hexData ds).length = 2 * ds.length := by
  induction ds with
  | nil => rfl
  | cons d ds ih => simp [hexData, ih]; omega

theorem hexData_mem (ds : List Byte) : ∀ b ∈ hexData ds, b ∈ hexDigits := by
  induction ds with
  | nil => simp [hexData]
  | cons d ds ih =>
    intro b hb
    rcases List.mem_append.mp hb with hb | hb
    · simp only [hex2, List.mem_cons, List.not_mem_nil, or_false] at hb
      rcases hb with rfl | rfl <;> exact hexChar_mem _
    · exact ih b hb

/-- Data written as pairs reads back. -/
@[simp] theorem unhexPairs_hexData (lower : Bool) (ds : List Byte) : unhexPairs lower (hexData ds) = some ds := by
  induction ds with
  | nil => rfl
  | cons d ds ih => simpa [hexData, hex2, unhexPairs, ih] using nibbles_byte d

@[simp] theorem unhexFrom_nil (lower : Bool) (acc : Nat) : unhexFrom lower acc [] = some acc := rfl

theorem unhexFrom_cons_some {lower : Bool} {c : Byte} {n : Nibble} (h : hexVal lower c = some n) (acc : Nat)
    (cs : List Byte) : unhexFrom lower acc (c :: cs) = unhexFrom lower (16 * acc + n.toNat) cs := by
  simp [unhexFrom, h]

/-- Digits read after `acc` are the low digits of the number. -/
theorem unhexFrom_hexN (lower : Bool) (v n acc : Nat) :
    unhexFrom lower acc (hexN v n) = some (acc * 16 ^ n + v % 16 ^ n) := by
  induction n generalizing acc with
  | zero => simp [hexN, Nat.mod_one]
  | succ n ih =>
    rw [hexN, unhexFrom_cons_some (hexVal_hexChar lower _), ih]
    have hsplit : v % 16 ^ (n + 1) = 16 ^ n * (v / 16 ^ n % 16) + v % 16 ^ n := by
      rw [Nat.pow_succ, Nat.mod_mul]; omega
    have hnib : (BitVec.ofNat 4 (v / 16 ^ n)).toNat = v / 16 ^ n % 16 := by simp
    rw [hsplit, hnib, Nat.pow_succ]
    congr 1
    ring

@[simp] theorem frameIdOf_number_standard (v : BitVec 11) : frameIdOf .standard v.toNat = .standard v := by
  simp [frameIdOf]

@[simp] theorem frameIdOf_number_extended (v : BitVec 29) : frameIdOf .extended v.toNat = .extended v := by
  simp [frameIdOf]

/-- Re-making a frame's identifier from its kind and number gives it back. -/
@[simp] theorem frameIdOf_kind_number (f : Frame) : frameIdOf (frameKind f) (frameIdNumber f) = f.id := by
  obtain ⟨id, data, h⟩ := f
  cases id <;> simp [frameKind, frameIdNumber]

/-- A frame's number is within the limit of its kind (R160). -/
theorem frameIdNumber_le (f : Frame) : frameIdNumber f ≤ idLimit (frameKind f) := by
  obtain ⟨id, data, h⟩ := f
  cases id with
  | standard v => have := v.isLt; simp [frameKind, frameIdNumber, idLimit]; omega
  | extended v => have := v.isLt; simp [frameKind, frameIdNumber, idLimit]; omega

@[simp] theorem variantKind_kindVariant (k : FrameKind) : variantKind (kindVariant k) = some k := by cases k <;> rfl

/-- What `decodeFrameOf` has checked when it answers a frame, test by test (R167). -/
theorem decodeFrameOf_some {lower : Bool} {k : FrameKind} {arg : List Byte} {f : Frame}
    (h : decodeFrameOf lower k arg = some f) :
    ∃ (v : Nat) (n : Nibble), idDigits k + 1 ≤ arg.length ∧ unhex lower (arg.take (idDigits k)) = some v ∧
      hexVal lower (arg.getD (idDigits k) 0) = some n ∧ n.toNat ≤ 8 ∧
      arg.length - (idDigits k + 1) = 2 * n.toNat ∧ v ≤ idLimit k ∧
      unhexPairs lower (arg.drop (idDigits k + 1)) = some f.data ∧ f.id = frameIdOf k v := by
  unfold decodeFrameOf at h
  split at h; · cases h
  split at h; · cases h
  split at h; · cases h
  rename_i v hv
  split at h; · cases h
  rename_i n hn
  split at h; · cases h
  split at h; · cases h
  split at h; · cases h
  split at h; · cases h
  rename_i data hd
  split at h
  · cases h
    exact ⟨v, n, by omega, hv, hn, by omega, by omega, by omega, hd, rfl⟩
  · cases h

end Sys2Proof.Machine
end

