-- ==== Sys2Proof/Laws/Codec.lean ====
section
/-! SUPPORT. The other direction of the codec's parts: what was read from digits is written back as those digits in upper
case; a list of digit pairs, one pair at a time; what a decoded frame says of its variant. -/

namespace Sys2Proof.Machine

/-- The length digit `0x30 + n` is the hex digit of `n` (R163 (c)). -/
theorem lengthDigit_eq_hexChar (n : Nat) (h : n ≤ 8) : BitVec.ofNat 8 (0x30 + n) = hexChar (BitVec.ofNat 4 n) := by
  have : ∀ n : Fin 9, BitVec.ofNat 8 (0x30 + n.val) = hexChar (BitVec.ofNat 4 n.val) := by decide
  exact this ⟨n, by omega⟩

/-- A digit read is written back in upper case. -/
theorem upperHex_of_hexVal (lower : Bool) (c : Byte) (v : Nibble) (h : hexVal lower c = some v) : upperHex c = hexChar v := by
  revert lower c v; decide

/-- A number read from digits after `acc` has `acc` above them and is written back as them. -/
theorem hexN_of_unhexFrom (lower : Bool) (s : List Byte) (acc v : Nat) (h : unhexFrom lower acc s = some v) :
   v / 16 ^ s.length = acc ∧ hexN v s.length = s.map upperHex := by
  induction s generalizing acc with
  | nil => simp [unhexFrom] at h; simp [h, hexN]
  | cons c cs ih =>
    unfold unhexFrom at h
    split at h
    · cases h
    · rename_i d hd
      obtain ⟨h1, h2⟩ := ih _ h
      have hdl := d.isLt
      constructor
      · simp only [List.length_cons, Nat.pow_succ, ← Nat.div_div_eq_div_mul, h1]; omega
      · simp only [List.length_cons, hexN, h2, List.map_cons, h1, upperHex_of_hexVal _ _ _ hd]
        congr 2
        apply BitVec.eq_of_toNat_eq; simp; omega

/-- Induction two bytes at a time. -/
theorem pairs_induction {motive : List Byte → Prop} (nil : motive []) (single : ∀ a, motive [a])
    (pair : ∀ a b cs, motive cs → motive (a :: b :: cs)) : ∀ s, motive s
  | [] => nil
  | [a] => single a
  | a :: b :: cs => pair a b cs (pairs_induction nil single pair cs)

/-- Data read from pairs is written back as them, two digits a byte. -/
theorem hexData_of_unhexPairs (lower : Bool) (s ds : List Byte) (h : unhexPairs lower s = some ds) :
   hexData ds = s.map upperHex ∧ s.length = 2 * ds.length := by
  induction s using pairs_induction generalizing ds with
  | nil => simp [unhexPairs] at h; simp [h, hexData]
  | single a => simp [unhexPairs] at h
  | pair a b cs ih =>
    unfold unhexPairs at h
    split at h
    · rename_i hv lv ds' e1 e2 e3
      cases h
      obtain ⟨i1, i2⟩ := ih _ e3
      refine ⟨?_, by simp [i2]; omega⟩
      simp only [hexData, i1, List.map_cons, upperHex_of_hexVal _ _ _ e1, upperHex_of_hexVal _ _ _ e2, hex2]
      have : ∀ a b : Nibble, (BitVec.ofNat 8 (16 * a.toNat + b.toNat)).extractLsb' 4 4 = a ∧ (BitVec.ofNat 8 (16 * a.toNat + b.toNat)).extractLsb' 0 4 = b := by decide
      rw [(this hv lv).1, (this hv lv).2]; rfl
    · cases h

/-- A frame is decoded only under the variant of its kind (R165). -/
theorem decodeFrame_kind {lower : Bool} {v : Variant} {arg : List Byte} {f : Frame} (h : decodeFrame lower v arg = some f) : v = kindVariant (frameKind f) ∧ decodeFrameOf lower (frameKind f) arg = some f := by
  unfold decodeFrame at h
  split at h
  · cases h
  · rename_i k hk
    obtain ⟨v', n, _, _, _, _, _, _, _, hid⟩ := decodeFrameOf_some h
    have : frameKind f = k := by cases k <;> simp [frameKind, hid, frameIdOf]
    subst this
    refine ⟨?_, h⟩
    revert hk; cases v <;> simp [variantKind] <;> rintro h <;> rw [← h] <;> rfl

/-- The number of an identifier made within the limit of its kind. -/
theorem frameIdNumber_of_frameIdOf {k : FrameKind} {v : Nat} {f : Frame} (h : f.id = frameIdOf k v) (hv : v ≤ idLimit k) : frameIdNumber f = v := by
  cases k <;> simp [frameIdNumber, h, frameIdOf, idLimit] at * <;> omega

/-- A sequence is its first `k` bytes, byte `k` and the rest. -/
theorem take_getD_drop (k : Nat) (arg : List Byte) (h : k + 1 ≤ arg.length) : arg = arg.take k ++ arg.getD k 0 :: arg.drop (k+1) := by
  conv_lhs => rw [← List.take_append_drop k arg]
  rw [List.drop_eq_getElem_cons (by omega)]
  simp [List.getD, List.getElem?_eq_getElem (show k < arg.length by omega)]

end Sys2Proof.Machine
end

