-- ==== Sys2Proof/Laws/Queue.lean ====
section
/-! SUPPORT. The small lemmas of the queue operations: what each answers, and that each keeps the capacity. -/

namespace Sys2Proof.Machine

theorem push_full {cap : Nat} {q : List Byte} (b : Byte) (h : q.length = cap) : push cap q b = none := by
  simp [push, h]

theorem push_room {cap : Nat} {q : List Byte} (b : Byte) (h : q.length ≠ cap) : push cap q b = some (q ++ [b]) := by
  simp [push, h]

/-- A push that succeeds appended its byte to a queue that was not full. -/
theorem push_some {cap : Nat} {q q' : List Byte} {b : Byte} (h : push cap q b = some q') :
    q.length ≠ cap ∧ q' = q ++ [b] := by
  unfold push at h
  split at h
  · cases h
  · exact ⟨‹_›, by simpa using h.symm⟩

theorem pushAll_full {cap : Nat} {q bs : List Byte} (h : cap - q.length < bs.length) : pushAll cap q bs = none := by
  simp [pushAll, free, h]

theorem pushAll_room {cap : Nat} {q bs : List Byte} (h : bs.length ≤ cap - q.length) :
    pushAll cap q bs = some (q ++ bs) := by
  simp [pushAll, free, Nat.not_lt.mpr h]

/-- A push of a sequence that succeeds appended all of it, and it fitted. -/
theorem pushAll_some {cap : Nat} {q q' bs : List Byte} (h : pushAll cap q bs = some q') :
    bs.length ≤ cap - q.length ∧ q' = q ++ bs := by
  unfold pushAll free at h
  split at h
  · cases h
  · exact ⟨Nat.not_lt.mp ‹_›, by simpa using h.symm⟩

@[simp] theorem pop_nil : pop [] = none := rfl
@[simp] theorem pop_cons (b : Byte) (q : List Byte) : pop (b :: q) = some (b, q) := rfl
@[simp] theorem drainAll_fst (q : List Byte) : (drainAll q).1 = q := rfl
@[simp] theorem drainAll_snd (q : List Byte) : (drainAll q).2 = [] := rfl
@[simp] theorem clearQueue_eq (q : List Byte) : clearQueue q = [] := rfl
@[simp] theorem popMany_zero (q : List Byte) : popMany 0 q = ([], q) := rfl
@[simp] theorem popMany_succ_cons (n : Nat) (b : Byte) (q : List Byte) :
    popMany (n + 1) (b :: q) = (b :: (popMany n q).1, (popMany n q).2) := rfl

/-- `Push` keeps the capacity (R51). -/
theorem push_length_le {cap : Nat} {q q' : List Byte} {b : Byte} (h : push cap q b = some q') (hq : q.length ≤ cap) :
    q'.length ≤ cap := by
  obtain ⟨hne, rfl⟩ := push_some h
  simp; omega

/-- `PushAll` keeps the capacity (R51). -/
theorem pushAll_length_le {cap : Nat} {q q' bs : List Byte} (h : pushAll cap q bs = some q') (hq : q.length ≤ cap) :
    q'.length ≤ cap := by
  obtain ⟨hle, rfl⟩ := pushAll_some h
  simp; omega

end Sys2Proof.Machine
end

