-- ==== Sys2Proof/Laws/State.lean ====
section
/-! SUPPORT. The field lemmas of the named writes: one per field per write, so that no proof unfolds a write. -/

namespace Sys2Proof.Machine.State

variable (s : State)

@[simp] theorem setChannel_cfg (v : ChannelState) : (s.setChannel v).cfg = s.cfg := rfl
@[simp] theorem setChannel_channelState (v : ChannelState) : (s.setChannel v).channelState = v := rfl
@[simp] theorem setChannel_bitrate (v : ChannelState) : (s.setChannel v).bitrate = s.bitrate := rfl
@[simp] theorem setChannel_flags (v : ChannelState) : (s.setChannel v).flags = s.flags := rfl
@[simp] theorem setChannel_timestamps (v : ChannelState) : (s.setChannel v).timestamps = s.timestamps := rfl
@[simp] theorem setChannel_hardwareVersion (v : ChannelState) : (s.setChannel v).hardwareVersion = s.hardwareVersion := rfl
@[simp] theorem setChannel_softwareVersion (v : ChannelState) : (s.setChannel v).softwareVersion = s.softwareVersion := rfl
@[simp] theorem setChannel_serialNumber (v : ChannelState) : (s.setChannel v).serialNumber = s.serialNumber := rfl
@[simp] theorem setChannel_rxQueue (v : ChannelState) : (s.setChannel v).rxQueue = s.rxQueue := rfl
@[simp] theorem setChannel_txQueue (v : ChannelState) : (s.setChannel v).txQueue = s.txQueue := rfl
@[simp] theorem setChannel_engineState (v : ChannelState) : (s.setChannel v).engineState = s.engineState := rfl
@[simp] theorem setChannel_serOut (v : ChannelState) : (s.setChannel v).serOut = s.serOut := rfl
@[simp] theorem setChannel_canReq (v : ChannelState) : (s.setChannel v).canReq = s.canReq := rfl
@[simp] theorem setChannel_canPolls (v : ChannelState) : (s.setChannel v).canPolls = s.canPolls := rfl
@[simp] theorem setChannel_events (v : ChannelState) : (s.setChannel v).events = s.events := rfl
@[simp] theorem setChannel_txAnswers (v : ChannelState) : (s.setChannel v).txAnswers = s.txAnswers := rfl

@[simp] theorem setBitrate_cfg (v : Option (Fin 9)) : (s.setBitrate v).cfg = s.cfg := rfl
@[simp] theorem setBitrate_channelState (v : Option (Fin 9)) : (s.setBitrate v).channelState = s.channelState := rfl
@[simp] theorem setBitrate_bitrate (v : Option (Fin 9)) : (s.setBitrate v).bitrate = v := rfl
@[simp] theorem setBitrate_flags (v : Option (Fin 9)) : (s.setBitrate v).flags = s.flags := rfl
@[simp] theorem setBitrate_timestamps (v : Option (Fin 9)) : (s.setBitrate v).timestamps = s.timestamps := rfl
@[simp] theorem setBitrate_hardwareVersion (v : Option (Fin 9)) : (s.setBitrate v).hardwareVersion = s.hardwareVersion := rfl
@[simp] theorem setBitrate_softwareVersion (v : Option (Fin 9)) : (s.setBitrate v).softwareVersion = s.softwareVersion := rfl
@[simp] theorem setBitrate_serialNumber (v : Option (Fin 9)) : (s.setBitrate v).serialNumber = s.serialNumber := rfl
@[simp] theorem setBitrate_rxQueue (v : Option (Fin 9)) : (s.setBitrate v).rxQueue = s.rxQueue := rfl
@[simp] theorem setBitrate_txQueue (v : Option (Fin 9)) : (s.setBitrate v).txQueue = s.txQueue := rfl
@[simp] theorem setBitrate_engineState (v : Option (Fin 9)) : (s.setBitrate v).engineState = s.engineState := rfl
@[simp] theorem setBitrate_serOut (v : Option (Fin 9)) : (s.setBitrate v).serOut = s.serOut := rfl
@[simp] theorem setBitrate_canReq (v : Option (Fin 9)) : (s.setBitrate v).canReq = s.canReq := rfl
@[simp] theorem setBitrate_canPolls (v : Option (Fin 9)) : (s.setBitrate v).canPolls = s.canPolls := rfl
@[simp] theorem setBitrate_events (v : Option (Fin 9)) : (s.setBitrate v).events = s.events := rfl
@[simp] theorem setBitrate_txAnswers (v : Option (Fin 9)) : (s.setBitrate v).txAnswers = s.txAnswers := rfl

@[simp] theorem setFlags_cfg (v : StatusFlags) : (s.setFlags v).cfg = s.cfg := rfl
@[simp] theorem setFlags_channelState (v : StatusFlags) : (s.setFlags v).channelState = s.channelState := rfl
@[simp] theorem setFlags_bitrate (v : StatusFlags) : (s.setFlags v).bitrate = s.bitrate := rfl
@[simp] theorem setFlags_flags (v : StatusFlags) : (s.setFlags v).flags = v := rfl
@[simp] theorem setFlags_timestamps (v : StatusFlags) : (s.setFlags v).timestamps = s.timestamps := rfl
@[simp] theorem setFlags_hardwareVersion (v : StatusFlags) : (s.setFlags v).hardwareVersion = s.hardwareVersion := rfl
@[simp] theorem setFlags_softwareVersion (v : StatusFlags) : (s.setFlags v).softwareVersion = s.softwareVersion := rfl
@[simp] theorem setFlags_serialNumber (v : StatusFlags) : (s.setFlags v).serialNumber = s.serialNumber := rfl
@[simp] theorem setFlags_rxQueue (v : StatusFlags) : (s.setFlags v).rxQueue = s.rxQueue := rfl
@[simp] theorem setFlags_txQueue (v : StatusFlags) : (s.setFlags v).txQueue = s.txQueue := rfl
@[simp] theorem setFlags_engineState (v : StatusFlags) : (s.setFlags v).engineState = s.engineState := rfl
@[simp] theorem setFlags_serOut (v : StatusFlags) : (s.setFlags v).serOut = s.serOut := rfl
@[simp] theorem setFlags_canReq (v : StatusFlags) : (s.setFlags v).canReq = s.canReq := rfl
@[simp] theorem setFlags_canPolls (v : StatusFlags) : (s.setFlags v).canPolls = s.canPolls := rfl
@[simp] theorem setFlags_events (v : StatusFlags) : (s.setFlags v).events = s.events := rfl
@[simp] theorem setFlags_txAnswers (v : StatusFlags) : (s.setFlags v).txAnswers = s.txAnswers := rfl

@[simp] theorem setTimestamps_cfg (v : Bool) : (s.setTimestamps v).cfg = s.cfg := rfl
@[simp] theorem setTimestamps_channelState (v : Bool) : (s.setTimestamps v).channelState = s.channelState := rfl
@[simp] theorem setTimestamps_bitrate (v : Bool) : (s.setTimestamps v).bitrate = s.bitrate := rfl
@[simp] theorem setTimestamps_flags (v : Bool) : (s.setTimestamps v).flags = s.flags := rfl
@[simp] theorem setTimestamps_timestamps (v : Bool) : (s.setTimestamps v).timestamps = v := rfl
@[simp] theorem setTimestamps_hardwareVersion (v : Bool) : (s.setTimestamps v).hardwareVersion = s.hardwareVersion := rfl
@[simp] theorem setTimestamps_softwareVersion (v : Bool) : (s.setTimestamps v).softwareVersion = s.softwareVersion := rfl
@[simp] theorem setTimestamps_serialNumber (v : Bool) : (s.setTimestamps v).serialNumber = s.serialNumber := rfl
@[simp] theorem setTimestamps_rxQueue (v : Bool) : (s.setTimestamps v).rxQueue = s.rxQueue := rfl
@[simp] theorem setTimestamps_txQueue (v : Bool) : (s.setTimestamps v).txQueue = s.txQueue := rfl
@[simp] theorem setTimestamps_engineState (v : Bool) : (s.setTimestamps v).engineState = s.engineState := rfl
@[simp] theorem setTimestamps_serOut (v : Bool) : (s.setTimestamps v).serOut = s.serOut := rfl
@[simp] theorem setTimestamps_canReq (v : Bool) : (s.setTimestamps v).canReq = s.canReq := rfl
@[simp] theorem setTimestamps_canPolls (v : Bool) : (s.setTimestamps v).canPolls = s.canPolls := rfl
@[simp] theorem setTimestamps_events (v : Bool) : (s.setTimestamps v).events = s.events := rfl
@[simp] theorem setTimestamps_txAnswers (v : Bool) : (s.setTimestamps v).txAnswers = s.txAnswers := rfl

@[simp] theorem setRxQueue_cfg (v : List Byte) : (s.setRxQueue v).cfg = s.cfg := rfl
@[simp] theorem setRxQueue_channelState (v : List Byte) : (s.setRxQueue v).channelState = s.channelState := rfl
@[simp] theorem setRxQueue_bitrate (v : List Byte) : (s.setRxQueue v).bitrate = s.bitrate := rfl
@[simp] theorem setRxQueue_flags (v : List Byte) : (s.setRxQueue v).flags = s.flags := rfl
@[simp] theorem setRxQueue_timestamps (v : List Byte) : (s.setRxQueue v).timestamps = s.timestamps := rfl
@[simp] theorem setRxQueue_hardwareVersion (v : List Byte) : (s.setRxQueue v).hardwareVersion = s.hardwareVersion := rfl
@[simp] theorem setRxQueue_softwareVersion (v : List Byte) : (s.setRxQueue v).softwareVersion = s.softwareVersion := rfl
@[simp] theorem setRxQueue_serialNumber (v : List Byte) : (s.setRxQueue v).serialNumber = s.serialNumber := rfl
@[simp] theorem setRxQueue_rxQueue (v : List Byte) : (s.setRxQueue v).rxQueue = v := rfl
@[simp] theorem setRxQueue_txQueue (v : List Byte) : (s.setRxQueue v).txQueue = s.txQueue := rfl
@[simp] theorem setRxQueue_engineState (v : List Byte) : (s.setRxQueue v).engineState = s.engineState := rfl
@[simp] theorem setRxQueue_serOut (v : List Byte) : (s.setRxQueue v).serOut = s.serOut := rfl
@[simp] theorem setRxQueue_canReq (v : List Byte) : (s.setRxQueue v).canReq = s.canReq := rfl
@[simp] theorem setRxQueue_canPolls (v : List Byte) : (s.setRxQueue v).canPolls = s.canPolls := rfl
@[simp] theorem setRxQueue_events (v : List Byte) : (s.setRxQueue v).events = s.events := rfl
@[simp] theorem setRxQueue_txAnswers (v : List Byte) : (s.setRxQueue v).txAnswers = s.txAnswers := rfl

@[simp] theorem setTxQueue_cfg (v : List Byte) : (s.setTxQueue v).cfg = s.cfg := rfl
@[simp] theorem setTxQueue_channelState (v : List Byte) : (s.setTxQueue v).channelState = s.channelState := rfl
@[simp] theorem setTxQueue_bitrate (v : List Byte) : (s.setTxQueue v).bitrate = s.bitrate := rfl
@[simp] theorem setTxQueue_flags (v : List Byte) : (s.setTxQueue v).flags = s.flags := rfl
@[simp] theorem setTxQueue_timestamps (v : List Byte) : (s.setTxQueue v).timestamps = s.timestamps := rfl
@[simp] theorem setTxQueue_hardwareVersion (v : List Byte) : (s.setTxQueue v).hardwareVersion = s.hardwareVersion := rfl
@[simp] theorem setTxQueue_softwareVersion (v : List Byte) : (s.setTxQueue v).softwareVersion = s.softwareVersion := rfl
@[simp] theorem setTxQueue_serialNumber (v : List Byte) : (s.setTxQueue v).serialNumber = s.serialNumber := rfl
@[simp] theorem setTxQueue_rxQueue (v : List Byte) : (s.setTxQueue v).rxQueue = s.rxQueue := rfl
@[simp] theorem setTxQueue_txQueue (v : List Byte) : (s.setTxQueue v).txQueue = v := rfl
@[simp] theorem setTxQueue_engineState (v : List Byte) : (s.setTxQueue v).engineState = s.engineState := rfl
@[simp] theorem setTxQueue_serOut (v : List Byte) : (s.setTxQueue v).serOut = s.serOut := rfl
@[simp] theorem setTxQueue_canReq (v : List Byte) : (s.setTxQueue v).canReq = s.canReq := rfl
@[simp] theorem setTxQueue_canPolls (v : List Byte) : (s.setTxQueue v).canPolls = s.canPolls := rfl
@[simp] theorem setTxQueue_events (v : List Byte) : (s.setTxQueue v).events = s.events := rfl
@[simp] theorem setTxQueue_txAnswers (v : List Byte) : (s.setTxQueue v).txAnswers = s.txAnswers := rfl

@[simp] theorem setEngine_cfg (v : EngineState) : (s.setEngine v).cfg = s.cfg := rfl
@[simp] theorem setEngine_channelState (v : EngineState) : (s.setEngine v).channelState = s.channelState := rfl
@[simp] theorem setEngine_bitrate (v : EngineState) : (s.setEngine v).bitrate = s.bitrate := rfl
@[simp] theorem setEngine_flags (v : EngineState) : (s.setEngine v).flags = s.flags := rfl
@[simp] theorem setEngine_timestamps (v : EngineState) : (s.setEngine v).timestamps = s.timestamps := rfl
@[simp] theorem setEngine_hardwareVersion (v : EngineState) : (s.setEngine v).hardwareVersion = s.hardwareVersion := rfl
@[simp] theorem setEngine_softwareVersion (v : EngineState) : (s.setEngine v).softwareVersion = s.softwareVersion := rfl
@[simp] theorem setEngine_serialNumber (v : EngineState) : (s.setEngine v).serialNumber = s.serialNumber := rfl
@[simp] theorem setEngine_rxQueue (v : EngineState) : (s.setEngine v).rxQueue = s.rxQueue := rfl
@[simp] theorem setEngine_txQueue (v : EngineState) : (s.setEngine v).txQueue = s.txQueue := rfl
@[simp] theorem setEngine_engineState (v : EngineState) : (s.setEngine v).engineState = v := rfl
@[simp] theorem setEngine_serOut (v : EngineState) : (s.setEngine v).serOut = s.serOut := rfl
@[simp] theorem setEngine_canReq (v : EngineState) : (s.setEngine v).canReq = s.canReq := rfl
@[simp] theorem setEngine_canPolls (v : EngineState) : (s.setEngine v).canPolls = s.canPolls := rfl
@[simp] theorem setEngine_events (v : EngineState) : (s.setEngine v).events = s.events := rfl
@[simp] theorem setEngine_txAnswers (v : EngineState) : (s.setEngine v).txAnswers = s.txAnswers := rfl

@[simp] theorem emitByte_cfg (b : Byte) : (s.emitByte b).cfg = s.cfg := rfl
@[simp] theorem emitByte_channelState (b : Byte) : (s.emitByte b).channelState = s.channelState := rfl
@[simp] theorem emitByte_bitrate (b : Byte) : (s.emitByte b).bitrate = s.bitrate := rfl
@[simp] theorem emitByte_flags (b : Byte) : (s.emitByte b).flags = s.flags := rfl
@[simp] theorem emitByte_timestamps (b : Byte) : (s.emitByte b).timestamps = s.timestamps := rfl
@[simp] theorem emitByte_hardwareVersion (b : Byte) : (s.emitByte b).hardwareVersion = s.hardwareVersion := rfl
@[simp] theorem emitByte_softwareVersion (b : Byte) : (s.emitByte b).softwareVersion = s.softwareVersion := rfl
@[simp] theorem emitByte_serialNumber (b : Byte) : (s.emitByte b).serialNumber = s.serialNumber := rfl
@[simp] theorem emitByte_rxQueue (b : Byte) : (s.emitByte b).rxQueue = s.rxQueue := rfl
@[simp] theorem emitByte_txQueue (b : Byte) : (s.emitByte b).txQueue = s.txQueue := rfl
@[simp] theorem emitByte_engineState (b : Byte) : (s.emitByte b).engineState = s.engineState := rfl
@[simp] theorem emitByte_serOut (b : Byte) : (s.emitByte b).serOut = s.serOut ++ [b] := rfl
@[simp] theorem emitByte_canReq (b : Byte) : (s.emitByte b).canReq = s.canReq := rfl
@[simp] theorem emitByte_canPolls (b : Byte) : (s.emitByte b).canPolls = s.canPolls := rfl
@[simp] theorem emitByte_events (b : Byte) : (s.emitByte b).events = s.events := rfl
@[simp] theorem emitByte_txAnswers (b : Byte) : (s.emitByte b).txAnswers = s.txAnswers := rfl

@[simp] theorem logRequest_cfg (f : Frame) (a : TxAnswer) : (s.logRequest f a).cfg = s.cfg := rfl
@[simp] theorem logRequest_channelState (f : Frame) (a : TxAnswer) : (s.logRequest f a).channelState = s.channelState := rfl
@[simp] theorem logRequest_bitrate (f : Frame) (a : TxAnswer) : (s.logRequest f a).bitrate = s.bitrate := rfl
@[simp] theorem logRequest_flags (f : Frame) (a : TxAnswer) : (s.logRequest f a).flags = s.flags := rfl
@[simp] theorem logRequest_timestamps (f : Frame) (a : TxAnswer) : (s.logRequest f a).timestamps = s.timestamps := rfl
@[simp] theorem logRequest_hardwareVersion (f : Frame) (a : TxAnswer) : (s.logRequest f a).hardwareVersion = s.hardwareVersion := rfl
@[simp] theorem logRequest_softwareVersion (f : Frame) (a : TxAnswer) : (s.logRequest f a).softwareVersion = s.softwareVersion := rfl
@[simp] theorem logRequest_serialNumber (f : Frame) (a : TxAnswer) : (s.logRequest f a).serialNumber = s.serialNumber := rfl
@[simp] theorem logRequest_rxQueue (f : Frame) (a : TxAnswer) : (s.logRequest f a).rxQueue = s.rxQueue := rfl
@[simp] theorem logRequest_txQueue (f : Frame) (a : TxAnswer) : (s.logRequest f a).txQueue = s.txQueue := rfl
@[simp] theorem logRequest_engineState (f : Frame) (a : TxAnswer) : (s.logRequest f a).engineState = s.engineState := rfl
@[simp] theorem logRequest_serOut (f : Frame) (a : TxAnswer) : (s.logRequest f a).serOut = s.serOut := rfl
@[simp] theorem logRequest_canReq (f : Frame) (a : TxAnswer) : (s.logRequest f a).canReq = s.canReq ++ [(f, a)] := rfl
@[simp] theorem logRequest_canPolls (f : Frame) (a : TxAnswer) : (s.logRequest f a).canPolls = s.canPolls := rfl
@[simp] theorem logRequest_events (f : Frame) (a : TxAnswer) : (s.logRequest f a).events = s.events := rfl
@[simp] theorem logRequest_txAnswers (f : Frame) (a : TxAnswer) : (s.logRequest f a).txAnswers = s.txAnswers.tail := rfl

@[simp] theorem logPoll_cfg : (s.logPoll).cfg = s.cfg := rfl
@[simp] theorem logPoll_channelState : (s.logPoll).channelState = s.channelState := rfl
@[simp] theorem logPoll_bitrate : (s.logPoll).bitrate = s.bitrate := rfl
@[simp] theorem logPoll_flags : (s.logPoll).flags = s.flags := rfl
@[simp] theorem logPoll_timestamps : (s.logPoll).timestamps = s.timestamps := rfl
@[simp] theorem logPoll_hardwareVersion : (s.logPoll).hardwareVersion = s.hardwareVersion := rfl
@[simp] theorem logPoll_softwareVersion : (s.logPoll).softwareVersion = s.softwareVersion := rfl
@[simp] theorem logPoll_serialNumber : (s.logPoll).serialNumber = s.serialNumber := rfl
@[simp] theorem logPoll_rxQueue : (s.logPoll).rxQueue = s.rxQueue := rfl
@[simp] theorem logPoll_txQueue : (s.logPoll).txQueue = s.txQueue := rfl
@[simp] theorem logPoll_engineState : (s.logPoll).engineState = s.engineState := rfl
@[simp] theorem logPoll_serOut : (s.logPoll).serOut = s.serOut := rfl
@[simp] theorem logPoll_canReq : (s.logPoll).canReq = s.canReq := rfl
@[simp] theorem logPoll_canPolls : (s.logPoll).canPolls = s.canPolls + 1 := rfl
@[simp] theorem logPoll_events : (s.logPoll).events = s.events := rfl
@[simp] theorem logPoll_txAnswers : (s.logPoll).txAnswers = s.txAnswers := rfl

@[simp] theorem setEvents_cfg (v : List Event) : (s.setEvents v).cfg = s.cfg := rfl
@[simp] theorem setEvents_channelState (v : List Event) : (s.setEvents v).channelState = s.channelState := rfl
@[simp] theorem setEvents_bitrate (v : List Event) : (s.setEvents v).bitrate = s.bitrate := rfl
@[simp] theorem setEvents_flags (v : List Event) : (s.setEvents v).flags = s.flags := rfl
@[simp] theorem setEvents_timestamps (v : List Event) : (s.setEvents v).timestamps = s.timestamps := rfl
@[simp] theorem setEvents_hardwareVersion (v : List Event) : (s.setEvents v).hardwareVersion = s.hardwareVersion := rfl
@[simp] theorem setEvents_softwareVersion (v : List Event) : (s.setEvents v).softwareVersion = s.softwareVersion := rfl
@[simp] theorem setEvents_serialNumber (v : List Event) : (s.setEvents v).serialNumber = s.serialNumber := rfl
@[simp] theorem setEvents_rxQueue (v : List Event) : (s.setEvents v).rxQueue = s.rxQueue := rfl
@[simp] theorem setEvents_txQueue (v : List Event) : (s.setEvents v).txQueue = s.txQueue := rfl
@[simp] theorem setEvents_engineState (v : List Event) : (s.setEvents v).engineState = s.engineState := rfl
@[simp] theorem setEvents_serOut (v : List Event) : (s.setEvents v).serOut = s.serOut := rfl
@[simp] theorem setEvents_canReq (v : List Event) : (s.setEvents v).canReq = s.canReq := rfl
@[simp] theorem setEvents_canPolls (v : List Event) : (s.setEvents v).canPolls = s.canPolls := rfl
@[simp] theorem setEvents_events (v : List Event) : (s.setEvents v).events = v := rfl
@[simp] theorem setEvents_txAnswers (v : List Event) : (s.setEvents v).txAnswers = s.txAnswers := rfl

end Sys2Proof.Machine.State
end

