-- ==== Sys2Proof/Laws/Ops.lean ====
section
/-! SUPPORT. The lemmas of the shared operations: everything `pushLine`, taking an error, finishing a command and the
controller's operations can do, said once. -/

namespace Sys2Proof.Machine

/-- A line that fits is appended whole. -/
theorem pushLine_room {bs : List Byte} {s : State} (h : s.txQueue.length + bs.length ≤ s.cfg.txCap) :
    pushLine bs s = s.setTxQueue (s.txQueue ++ bs) := by
  simp [pushLine, pushAll_room (show bs.length ≤ s.cfg.txCap - s.txQueue.length by omega)]

/-- A line that does not fit is dropped whole and the flag set. -/
theorem pushLine_full {bs : List Byte} {s : State} (h : s.cfg.txCap - s.txQueue.length < bs.length) :
    pushLine bs s = s.setFlags (latchTxQueueFull s.flags) := by
  simp [pushLine, pushAll_full h]

/-- Everything `pushLine` can do. -/
theorem pushLine_cases (bs : List Byte) (s : State) :
    (bs.length ≤ s.cfg.txCap - s.txQueue.length ∧ pushLine bs s = s.setTxQueue (s.txQueue ++ bs)) ∨
    (s.cfg.txCap - s.txQueue.length < bs.length ∧ pushLine bs s = s.setFlags (latchTxQueueFull s.flags)) := by
  by_cases h : s.cfg.txCap - s.txQueue.length < bs.length
  · exact .inr ⟨h, pushLine_full h⟩
  · exact .inl ⟨by omega, by simp [pushLine, pushAll_room (Nat.not_lt.mp h)]⟩

section
variable (bs : List Byte) (s : State)

@[simp] theorem pushLine_cfg : (pushLine bs s).cfg = s.cfg := by rcases pushLine_cases bs s with ⟨_, h⟩ | ⟨_, h⟩ <;> simp [h]
@[simp] theorem pushLine_channelState : (pushLine bs s).channelState = s.channelState := by rcases pushLine_cases bs s with ⟨_, h⟩ | ⟨_, h⟩ <;> simp [h]
@[simp] theorem pushLine_bitrate : (pushLine bs s).bitrate = s.bitrate := by rcases pushLine_cases bs s with ⟨_, h⟩ | ⟨_, h⟩ <;> simp [h]
@[simp] theorem pushLine_timestamps : (pushLine bs s).timestamps = s.timestamps := by rcases pushLine_cases bs s with ⟨_, h⟩ | ⟨_, h⟩ <;> simp [h]
@[simp] theorem pushLine_hardwareVersion : (pushLine bs s).hardwareVersion = s.hardwareVersion := by rcases pushLine_cases bs s with ⟨_, h⟩ | ⟨_, h⟩ <;> simp [h]
@[simp] theorem pushLine_softwareVersion : (pushLine bs s).softwareVersion = s.softwareVersion := by rcases pushLine_cases bs s with ⟨_, h⟩ | ⟨_, h⟩ <;> simp [h]
@[simp] theorem pushLine_serialNumber : (pushLine bs s).serialNumber = s.serialNumber := by rcases pushLine_cases bs s with ⟨_, h⟩ | ⟨_, h⟩ <;> simp [h]
@[simp] theorem pushLine_rxQueue : (pushLine bs s).rxQueue = s.rxQueue := by rcases pushLine_cases bs s with ⟨_, h⟩ | ⟨_, h⟩ <;> simp [h]
@[simp] theorem pushLine_engineState : (pushLine bs s).engineState = s.engineState := by rcases pushLine_cases bs s with ⟨_, h⟩ | ⟨_, h⟩ <;> simp [h]
@[simp] theorem pushLine_serOut : (pushLine bs s).serOut = s.serOut := by rcases pushLine_cases bs s with ⟨_, h⟩ | ⟨_, h⟩ <;> simp [h]
@[simp] theorem pushLine_canReq : (pushLine bs s).canReq = s.canReq := by rcases pushLine_cases bs s with ⟨_, h⟩ | ⟨_, h⟩ <;> simp [h]
@[simp] theorem pushLine_canPolls : (pushLine bs s).canPolls = s.canPolls := by rcases pushLine_cases bs s with ⟨_, h⟩ | ⟨_, h⟩ <;> simp [h]
@[simp] theorem pushLine_events : (pushLine bs s).events = s.events := by rcases pushLine_cases bs s with ⟨_, h⟩ | ⟨_, h⟩ <;> simp [h]
@[simp] theorem pushLine_txAnswers : (pushLine bs s).txAnswers = s.txAnswers := by rcases pushLine_cases bs s with ⟨_, h⟩ | ⟨_, h⟩ <;> simp [h]

/-- `pushLine` leaves the flags, or sets `tx_queue_full` among them. -/
theorem pushLine_flags : (pushLine bs s).flags = s.flags ∨ (pushLine bs s).flags = latchTxQueueFull s.flags := by
  rcases pushLine_cases bs s with ⟨_, h⟩ | ⟨_, h⟩ <;> simp [h]

/-- `pushLine` appends the whole line to `tx_queue`, or nothing. -/
theorem pushLine_txQueue : (pushLine bs s).txQueue = s.txQueue ++ bs ∨ (pushLine bs s).txQueue = s.txQueue := by
  rcases pushLine_cases bs s with ⟨_, h⟩ | ⟨_, h⟩ <;> simp [h]

/-- `pushLine` keeps the capacity of `tx_queue` (R51). -/
theorem pushLine_txQueue_length_le (h : s.txQueue.length ≤ s.cfg.txCap) :
    (pushLine bs s).txQueue.length ≤ s.cfg.txCap := by
  rcases pushLine_cases bs s with ⟨hle, hp⟩ | ⟨_, hp⟩
  · simp [hp]; omega
  · simpa [hp] using h
end

/-- The control state has one value (R33), so writing it changes nothing. -/
@[simp] theorem setEngine_eq (s : State) (v : EngineState) : s.setEngine v = s := by
  obtain ⟨⟩ := v
  have h : s.engineState = .accumulating := by cases s.engineState; rfl
  obtain ⟨⟩ := s
  simp_all [State.setEngine]

@[simp] theorem returnFromError_eq (s : State) : returnFromError s = s := by simp [returnFromError]

/-- Taking an error of any kind is queueing the bell (R200, R334, R337). -/
@[simp] theorem takeError_eq (k : ErrorKind) (s : State) : takeError k s = pushLine [BELL] s := by simp [takeError]

/-- Finishing a command is queueing its reply line (R197). -/
theorem finish_eq (h : State × Reply) : finish h = pushLine (replyLine h.2) h.1 := by
  obtain ⟨s, r⟩ := h
  cases r <;> simp [finish, replyLine]

/-- Everything `set_bitrate` can do (R143). -/
theorem controllerSetBitrate_cases (i : Fin 9) (s : State) :
    (resolveIndex s.cfg i = none ∧ controllerSetBitrate i s = none) ∨
    (∃ t, resolveIndex s.cfg i = some t ∧
      controllerSetBitrate i s = some ((s.setBitrate (some i)).setChannel .closed)) := by
  unfold controllerSetBitrate
  cases h : resolveIndex s.cfg i with
  | none => exact .inl ⟨rfl, rfl⟩
  | some t => exact .inr ⟨t, rfl, rfl⟩

@[simp] theorem controllerTransmit_fst (f : Frame) (s : State) : (controllerTransmit f s).1 = nextTxAnswer s := rfl
@[simp] theorem controllerTransmit_snd (f : Frame) (s : State) :
    (controllerTransmit f s).2 = s.logRequest f (nextTxAnswer s) := rfl

end Sys2Proof.Machine
end

