-- ==== Sys2Proof/Laws/Exec.lean ====
section
/-! SUPPORT. Executing a command is running its handler and finishing; what no handler changes; everything each handler
can answer. -/

namespace Sys2Proof.Machine

/-- R197: `exec` is `run` and then `finish`, for every command. -/
theorem exec_eq (i : Instr) (s : State) : exec i s = .next (finish (run i s)) := by cases i <;> rfl

/-- Everything `handle_S` can do (R221). -/
theorem handleSetup_cases (arg : List Byte) (s : State) :
    (∃ k, handleSetup arg s = (s, .error k) ∧ (k = .invalidCommand ∨ k = .invalidTiming)) ∨
    (∃ i t, bitrateIndex arg = some i ∧ resolveIndex s.cfg i = some t ∧
      ¬ (s.channelState = .opened ∧ s.cfg.sWhileOpen = .reject) ∧
      handleSetup arg s = ((s.setBitrate (some i)).setChannel .closed, .response [])) := by
  unfold handleSetup
  cases hi : bitrateIndex arg with
  | none => exact .inl ⟨_, rfl, .inl rfl⟩
  | some i =>
    by_cases ho : s.channelState = .opened ∧ s.cfg.sWhileOpen = .reject
    · exact .inl ⟨.invalidCommand, by simp [ho], .inl rfl⟩
    · rcases controllerSetBitrate_cases i s with ⟨_, hb⟩ | ⟨t, ht, hb⟩
      · exact .inl ⟨.invalidTiming, by simp only [ho, hb, if_false], .inr rfl⟩
      · exact .inr ⟨i, t, rfl, ht, ho, by simp only [ho, hb, if_false]⟩

/-- Everything `handle_t` and `handle_T` can do (R241, R242). -/
theorem transmitDecoded_cases (v : Variant) (arg : List Byte) (s : State) :
    (decodeFrame s.cfg.acceptLowercaseHex v arg = none ∧ transmitDecoded v arg s = (s, .error .invalidCommand)) ∨
    (∃ f, decodeFrame s.cfg.acceptLowercaseHex v arg = some f ∧
      ((nextTxAnswer s = .bufferOverrun ∧
          transmitDecoded v arg s = (s.logRequest f .bufferOverrun, .error .bufferOverrun)) ∨
        (nextTxAnswer s = .ok ∧ transmitDecoded v arg s = (s.logRequest f .ok, .response (encodeFrame f true))))) := by
  unfold transmitDecoded controllerTransmit
  cases hd : decodeFrame s.cfg.acceptLowercaseHex v arg with
  | none => exact .inl ⟨rfl, rfl⟩
  | some f =>
    refine .inr ⟨f, rfl, ?_⟩
    cases ha : nextTxAnswer s with
    | ok => exact .inr ⟨rfl, rfl⟩
    | bufferOverrun => exact .inl ⟨rfl, rfl⟩

/-- Everything `handle_Z` can do (R266). -/
theorem handleEnableTimeStamps_cases (arg : List Byte) (s : State) :
    (timestampValue arg = none ∧ handleEnableTimeStamps arg s = (s, .error .invalidCommand)) ∨
    (∃ v, timestampValue arg = some v ∧ handleEnableTimeStamps arg s = (s.setTimestamps v, .response [])) := by
  unfold handleEnableTimeStamps
  cases h : timestampValue arg with
  | none => exact .inl ⟨rfl, rfl⟩
  | some v => exact .inr ⟨v, rfl, rfl⟩

/-- Everything the state after a handler can be: unchanged, or the one write its command makes. -/
theorem run_state_cases (i : Instr) (s : State) :
    (run i s).1 = s ∨
    (∃ n t, (∃ arg, i = .setup arg) ∧ resolveIndex s.cfg n = some t ∧
      ¬ (s.channelState = .opened ∧ s.cfg.sWhileOpen = .reject) ∧
      (run i s).1 = (s.setBitrate (some n)).setChannel .closed) ∨
    ((∃ arg, i = .openChannel arg) ∧ (run i s).1 = s.setChannel .opened) ∨
    ((∃ arg, i = .closeChannel arg) ∧ (run i s).1 = s.setChannel .closed) ∨
    (∃ f a, (∃ arg, i = .transmitFrame arg ∨ i = .transmitExtendedFrame arg) ∧ (run i s).1 = s.logRequest f a) ∨
    (∃ v, (∃ arg, i = .enableTimeStamps arg) ∧ (run i s).1 = s.setTimestamps v) := by
  cases i with
  | setup arg =>
    rcases handleSetup_cases arg s with ⟨k, h, _⟩ | ⟨n, t, _, ht, ho, h⟩
    · exact .inl (by simp [run, h])
    · exact .inr (.inl ⟨n, t, ⟨arg, rfl⟩, ht, ho, by simp [run, h]⟩)
  | openChannel arg => exact .inr (.inr (.inl ⟨⟨arg, rfl⟩, rfl⟩))
  | closeChannel arg => exact .inr (.inr (.inr (.inl ⟨⟨arg, rfl⟩, rfl⟩)))
  | transmitFrame arg =>
    rcases transmitDecoded_cases .transmitFrame arg s with ⟨_, h⟩ | ⟨f, _, ⟨_, h⟩ | ⟨_, h⟩⟩
    · exact .inl (by simp [run, handleTransmitFrame, h])
    · exact .inr (.inr (.inr (.inr (.inl ⟨f, _, ⟨arg, .inl rfl⟩, by simp only [run, handleTransmitFrame, h]; rfl⟩))))
    · exact .inr (.inr (.inr (.inr (.inl ⟨f, _, ⟨arg, .inl rfl⟩, by simp only [run, handleTransmitFrame, h]; rfl⟩))))
  | transmitExtendedFrame arg =>
    rcases transmitDecoded_cases .transmitExtendedFrame arg s with ⟨_, h⟩ | ⟨f, _, ⟨_, h⟩ | ⟨_, h⟩⟩
    · exact .inl (by simp [run, handleTransmitExtendedFrame, h])
    · exact .inr (.inr (.inr (.inr (.inl ⟨f, _, ⟨arg, .inr rfl⟩, by simp only [run, handleTransmitExtendedFrame, h]; rfl⟩))))
    · exact .inr (.inr (.inr (.inr (.inl ⟨f, _, ⟨arg, .inr rfl⟩, by simp only [run, handleTransmitExtendedFrame, h]; rfl⟩))))
  | enableTimeStamps arg =>
    rcases handleEnableTimeStamps_cases arg s with ⟨_, h⟩ | ⟨v, _, h⟩
    · exact .inl (by simp [run, h])
    · exact .inr (.inr (.inr (.inr (.inr ⟨v, ⟨arg, rfl⟩, by simp [run, h]⟩))))
  | setupWithBtr arg => exact .inl rfl
  | transmitRtrFrame arg => exact .inl rfl
  | transmitExtendedRtrFrame arg => exact .inl rfl
  | readStatusFlags arg => exact .inl rfl
  | setAcceptanceCode arg => exact .inl rfl
  | setAcceptanceMask arg => exact .inl rfl
  | getVersion arg => exact .inl rfl
  | getSerialNumber arg => exact .inl rfl

section
variable (i : Instr) (s : State)

@[simp] theorem run_cfg : (run i s).1.cfg = s.cfg := by
  rcases run_state_cases i s with h | ⟨_, _, _, _, _, h⟩ | ⟨_, h⟩ | ⟨_, h⟩ | ⟨_, _, _, h⟩ | ⟨_, _, h⟩ <;> simp [h]
@[simp] theorem run_flags : (run i s).1.flags = s.flags := by
  rcases run_state_cases i s with h | ⟨_, _, _, _, _, h⟩ | ⟨_, h⟩ | ⟨_, h⟩ | ⟨_, _, _, h⟩ | ⟨_, _, h⟩ <;> simp [h]
@[simp] theorem run_hardwareVersion : (run i s).1.hardwareVersion = s.hardwareVersion := by
  rcases run_state_cases i s with h | ⟨_, _, _, _, _, h⟩ | ⟨_, h⟩ | ⟨_, h⟩ | ⟨_, _, _, h⟩ | ⟨_, _, h⟩ <;> simp [h]
@[simp] theorem run_softwareVersion : (run i s).1.softwareVersion = s.softwareVersion := by
  rcases run_state_cases i s with h | ⟨_, _, _, _, _, h⟩ | ⟨_, h⟩ | ⟨_, h⟩ | ⟨_, _, _, h⟩ | ⟨_, _, h⟩ <;> simp [h]
@[simp] theorem run_serialNumber : (run i s).1.serialNumber = s.serialNumber := by
  rcases run_state_cases i s with h | ⟨_, _, _, _, _, h⟩ | ⟨_, h⟩ | ⟨_, h⟩ | ⟨_, _, _, h⟩ | ⟨_, _, h⟩ <;> simp [h]
@[simp] theorem run_rxQueue : (run i s).1.rxQueue = s.rxQueue := by
  rcases run_state_cases i s with h | ⟨_, _, _, _, _, h⟩ | ⟨_, h⟩ | ⟨_, h⟩ | ⟨_, _, _, h⟩ | ⟨_, _, h⟩ <;> simp [h]
@[simp] theorem run_txQueue : (run i s).1.txQueue = s.txQueue := by
  rcases run_state_cases i s with h | ⟨_, _, _, _, _, h⟩ | ⟨_, h⟩ | ⟨_, h⟩ | ⟨_, _, _, h⟩ | ⟨_, _, h⟩ <;> simp [h]
@[simp] theorem run_engineState : (run i s).1.engineState = s.engineState := by
  rcases run_state_cases i s with h | ⟨_, _, _, _, _, h⟩ | ⟨_, h⟩ | ⟨_, h⟩ | ⟨_, _, _, h⟩ | ⟨_, _, h⟩ <;> simp [h]
@[simp] theorem run_serOut : (run i s).1.serOut = s.serOut := by
  rcases run_state_cases i s with h | ⟨_, _, _, _, _, h⟩ | ⟨_, h⟩ | ⟨_, h⟩ | ⟨_, _, _, h⟩ | ⟨_, _, h⟩ <;> simp [h]
@[simp] theorem run_canPolls : (run i s).1.canPolls = s.canPolls := by
  rcases run_state_cases i s with h | ⟨_, _, _, _, _, h⟩ | ⟨_, h⟩ | ⟨_, h⟩ | ⟨_, _, _, h⟩ | ⟨_, _, h⟩ <;> simp [h]
@[simp] theorem run_events : (run i s).1.events = s.events := by
  rcases run_state_cases i s with h | ⟨_, _, _, _, _, h⟩ | ⟨_, h⟩ | ⟨_, h⟩ | ⟨_, _, _, h⟩ | ⟨_, _, h⟩ <;> simp [h]
end

end Sys2Proof.Machine
end

