-- ==== Sys2Proof/Laws/PerInstr.lean ====
section
/-! SUPPORT. Statements about instructions as syntax, one lemma per constructor (LAWS.json names the families). -/

namespace Sys2Proof.Laws

/-- The command byte of a variant selects that variant (R84). -/
theorem variantOf_byte (v : Variant) : variantOf v.byte = some v := by cases v <;> decide

/-- No command byte is the terminator. -/
theorem byte_ne_CR (v : Variant) : v.byte ≠ CR := by cases v <;> decide

/-- The encoder's command byte and the decoder's alphabet agree (R84): the byte of an instruction's variant selects that
variant, the variant and the arguments make up the instruction, and the command byte is no terminator. -/
def AlphabetRow.Statement (i : Instr) : Prop :=
  variantOf i.variant.byte = some i.variant ∧ i.variant.command i.arg = i ∧ i.variant.byte ≠ CR

namespace AlphabetRow

variable (arg : List Byte)

theorem setup : Statement (.setup arg) := ⟨variantOf_byte _, rfl, byte_ne_CR _⟩
theorem setupWithBtr : Statement (.setupWithBtr arg) := ⟨variantOf_byte _, rfl, byte_ne_CR _⟩
theorem openChannel : Statement (.openChannel arg) := ⟨variantOf_byte _, rfl, byte_ne_CR _⟩
theorem closeChannel : Statement (.closeChannel arg) := ⟨variantOf_byte _, rfl, byte_ne_CR _⟩
theorem transmitFrame : Statement (.transmitFrame arg) := ⟨variantOf_byte _, rfl, byte_ne_CR _⟩
theorem transmitExtendedFrame : Statement (.transmitExtendedFrame arg) := ⟨variantOf_byte _, rfl, byte_ne_CR _⟩
theorem transmitRtrFrame : Statement (.transmitRtrFrame arg) := ⟨variantOf_byte _, rfl, byte_ne_CR _⟩
theorem transmitExtendedRtrFrame : Statement (.transmitExtendedRtrFrame arg) := ⟨variantOf_byte _, rfl, byte_ne_CR _⟩
theorem readStatusFlags : Statement (.readStatusFlags arg) := ⟨variantOf_byte _, rfl, byte_ne_CR _⟩
theorem setAcceptanceCode : Statement (.setAcceptanceCode arg) := ⟨variantOf_byte _, rfl, byte_ne_CR _⟩
theorem setAcceptanceMask : Statement (.setAcceptanceMask arg) := ⟨variantOf_byte _, rfl, byte_ne_CR _⟩
theorem getVersion : Statement (.getVersion arg) := ⟨variantOf_byte _, rfl, byte_ne_CR _⟩
theorem getSerialNumber : Statement (.getSerialNumber arg) := ⟨variantOf_byte _, rfl, byte_ne_CR _⟩
theorem enableTimeStamps : Statement (.enableTimeStamps arg) := ⟨variantOf_byte _, rfl, byte_ne_CR _⟩

end AlphabetRow

end Sys2Proof.Laws
end

