-- ==== Sys2Proof/Laws/Ring.lean ====
section
/-! SUPPORT. Index arithmetic of the ring buffer (spec/20_memory.md R59): lengths, slots, and what a run of writes leaves. -/

namespace Sys2Proof.Machine

/-- A counter modulo `2*cap`, taken modulo `cap`, is the slot. -/
theorem mod_twice_cap (a c : Nat) : a % (2 * c) % c = a % c := Nat.mod_mod_of_dvd _ ⟨2, by ring⟩

/-- The write index is the read index plus `Len`. -/
theorem ring_tail_eq (r : Ring) (h : RingWf r) : r.tail = (r.head + ringLen r) % (2 * r.cap) := by
  obtain ⟨h0, h1, h2, h3, h4⟩ := h
  unfold ringLen
  by_cases hlt : r.tail < r.head
  · rw [Nat.mod_eq_of_lt (by omega : r.tail + 2 * r.cap - r.head < 2 * r.cap)]
    rw [show r.head + (r.tail + 2 * r.cap - r.head) = r.tail + 2 * r.cap by omega]
    simp [Nat.mod_eq_of_lt h3]
  · rw [show r.tail + 2 * r.cap - r.head = (r.tail - r.head) + 2 * r.cap by omega, Nat.add_mod_right,
      Nat.mod_eq_of_lt (by omega : r.tail - r.head < 2 * r.cap), Nat.mod_eq_of_lt (by omega)]
    omega

/-- `Len` of indices `n` apart is `n`. -/
theorem ring_len_of (c h n : Nat) (hh : h < 2 * c) (hn : n < 2 * c) : ((h + n) % (2 * c) + 2 * c - h) % (2 * c) = n := by
  by_cases hlt : h + n < 2 * c
  · rw [Nat.mod_eq_of_lt hlt, show h + n + 2 * c - h = n + 2 * c by omega]; simp [Nat.mod_eq_of_lt hn]
  · rw [show h + n = (h + n - 2 * c) + 2 * c by omega, Nat.add_mod_right, Nat.mod_eq_of_lt (by omega : h + n - 2 * c < 2 * c),
      show h + n - 2 * c + 2 * c - h = n by omega, Nat.mod_eq_of_lt hn]

/-- Indices less than `cap` apart are different slots. -/
theorem ring_slots_ne (c a i j : Nat) (hij : i < j) (hj : j < i + c) : (a + i) % c ≠ (a + j) % c := by
  intro h
  have h' : (a + i) ≡ (a + j) [MOD c] := h
  have : c ∣ (a + j) - (a + i) := (Nat.modEq_iff_dvd' (by omega)).1 h'
  have := Nat.le_of_dvd (by omega) this
  omega

/-- Writing keeps the number of slots. -/
theorem ringStore_length (r : Ring) (i : Nat) (bs : List Byte) : (ringStore r i bs).length = r.mem.length := by
  induction bs generalizing i with
  | nil => rfl
  | cons b bs ih => simp [ringStore, ih]

/-- A slot no write reached holds what it held. -/
theorem ringStore_other (r : Ring) (i : Nat) (bs : List Byte) (k : Nat) (h : ∀ j, j < bs.length → (i + j) % r.cap ≠ k) :
    (ringStore r i bs).getD k 0 = r.mem.getD k 0 := by
  induction bs generalizing i with
  | nil => rfl
  | cons b bs ih =>
    have h0 := h 0 (by simp)
    simp [ringStore, List.getD, List.getElem?_set]
    rw [if_neg (by simpa using h0)]
    have := ih (i+1) (fun j hj => by have := h (j+1) (by simpa using hj); rwa [show i + 1 + j = i + (j+1) by omega])
    simpa [List.getD] using this

/-- The slot of the `j`-th write holds the `j`-th byte. -/
theorem ringStore_at (r : Ring) (hm : r.mem.length = r.cap) (h0 : 0 < r.cap) (i : Nat) (bs : List Byte) (hb : bs.length ≤ r.cap) (j : Nat) (hj : j < bs.length) :
    (ringStore r i bs).getD ((i + j) % r.cap) 0 = bs.getD j 0 := by
  induction bs generalizing i j with
  | nil => simp at hj
  | cons b bs ih =>
    cases j with
    | zero =>
      simp only [ringStore, List.getD, List.getElem?_set, Nat.add_zero, if_true]
      rw [if_pos (by rw [ringStore_length, hm]; exact Nat.mod_lt _ h0)]; simp
    | succ j =>
      simp only [ringStore, List.getD, List.getElem?_set]
      rw [if_neg (by have := ring_slots_ne r.cap i 0 (j+1) (by omega) (by simp at hj hb; omega); simpa using this)]
      have := ih (i+1) (by simp at hb; omega) j (by simpa using hj)
      rw [show i + 1 + j = i + (j+1) by omega] at this
      simpa [List.getD] using this

/-- A ring buffer stands for `Len` bytes. -/
theorem ringData_length (r : Ring) : (ringData r).length = ringLen r := by simp [ringData]

/-- Byte `k` of what a ring buffer stands for. -/
theorem ringData_getD (r : Ring) (k : Nat) (h : k < ringLen r) : (ringData r).getD k 0 = r.mem.getD ((r.head + k) % r.cap) 0 := by
  simp [ringData, List.getD, h, ringSlot]

/-- Sequences of one length with the same bytes are equal. -/
theorem list_ext_getD (a b : List Byte) (hl : a.length = b.length) (h : ∀ k, k < a.length → a.getD k 0 = b.getD k 0) : a = b := by
  apply List.ext_getElem hl
  intro i h1 h2
  have := h i h1
  simpa [List.getD, h1, h2] using this

end Sys2Proof.Machine
end

