-- ==== Sys2Proof/Laws/Step.lean ====
section
/-! SUPPORT. What a step can do: executing a line, the agents' steps, and the one inversion lemma of `step`. -/

namespace Sys2Proof.Machine

theorem parse_cons_some {c : Config} {b : Byte} {arg : List Byte} {v : Variant} (hv : variantOf b = some v)
    (h : arg.length ≤ c.cmdArgCap) : parse c (b :: arg) = .ok (v.command arg) := by
  simp [parse, hv, Nat.not_lt.mpr h]

/-- Executing a line always gives a next state: a command's, or that of the error taken (R197). -/
theorem executeLine_cases (line : List Byte) (s : State) :
    (∃ e, parse s.cfg line = .error e ∧ executeLine line s = .next (pushLine [BELL] s)) ∨
    (∃ i, parse s.cfg line = .ok i ∧
      executeLine line s = .next (pushLine (replyLine (run i s).2) (run i s).1)) := by
  unfold executeLine
  cases h : parse s.cfg line with
  | error e => exact .inl ⟨e, rfl, by simp⟩
  | ok i => exact .inr ⟨i, rfl, by simp only [exec_eq, finish_eq]⟩

/-- Everything the accumulate branch can do (R293). -/
theorem accumulate_cases (b : Byte) (s : State) :
    (s.rxQueue.length ≠ s.cfg.rxCap ∧ accumulate b s = s.setRxQueue (s.rxQueue ++ [b])) ∨
    (s.rxQueue.length = s.cfg.rxCap ∧ accumulate b s = s.setFlags (latchRxQueueFull s.flags)) := by
  unfold accumulate
  by_cases h : s.rxQueue.length = s.cfg.rxCap
  · exact .inr ⟨h, by simp [push_full b h]⟩
  · exact .inl ⟨h, by simp [push_room b h]⟩

theorem rxByte_CR (s : State) : rxByte CR s = executeLine s.rxQueue (s.setRxQueue []) := by
  simp [rxByte, terminate]

theorem rxByte_of_ne {b : Byte} (h : b ≠ CR) (s : State) : rxByte b s = .next (accumulate b s) := by
  simp [rxByte, h]

@[simp] theorem canPoll_none (s : State) : canPoll none s = s.logPoll := rfl
@[simp] theorem canPoll_some (f : Frame) (s : State) :
    canPoll (some f) s = pushLine (encodeFrame f true ++ [CR]) s.logPoll := rfl

theorem flush_nil {s : State} (h : s.txQueue = []) : flush s = s := by simp [flush, h]

theorem flush_cons {s : State} {b : Byte} {q : List Byte} (h : s.txQueue = b :: q) :
    flush s = (s.setTxQueue q).emitByte b := by simp [flush, h]

theorem step_nil {s : State} (hv : s.cfg.Valid) (h : s.events = []) : step s = .next s := by
  unfold step; rw [if_pos hv, h]

theorem step_cons {s : State} (hv : s.cfg.Valid) {e : Event} {es : List Event} (h : s.events = e :: es) :
    step s = agentStep e (s.setEvents es) := by
  unfold step; rw [if_pos hv, h]

theorem step_invalid {s : State} (hv : ¬ s.cfg.Valid) : step s = .refused .invalidParameters := by
  unfold step; rw [if_neg hv]

/-- Everything a step that answers a next state did: the parameters were valid, and one of the agents moved. -/
theorem step_cases {s t : State} (h : step s = .next t) :
    s.cfg.Valid ∧
    ((s.events = [] ∧ t = s) ∨
    (∃ b es, s.events = .rxByte b :: es ∧ b ≠ CR ∧ t = accumulate b (s.setEvents es)) ∨
    (∃ es e, s.events = .rxByte CR :: es ∧ parse s.cfg s.rxQueue = .error e ∧
      t = pushLine [BELL] ((s.setEvents es).setRxQueue [])) ∨
    (∃ es i, s.events = .rxByte CR :: es ∧ parse s.cfg s.rxQueue = .ok i ∧
      t = pushLine (replyLine (run i ((s.setEvents es).setRxQueue [])).2)
        (run i ((s.setEvents es).setRxQueue [])).1) ∨
    (∃ a es, s.events = .canPoll a :: es ∧ t = canPoll a (s.setEvents es)) ∨
    (∃ es, s.events = .flush :: es ∧ t = flush (s.setEvents es)) ∨
    (∃ es, s.events = .reset :: es ∧ t = resetStep (s.setEvents es))) := by
  by_cases hv : s.cfg.Valid
  · refine ⟨hv, ?_⟩
    cases he : s.events with
    | nil =>
      rw [step_nil hv he] at h
      cases h
      exact .inl ⟨rfl, rfl⟩
    | cons e es =>
      rw [step_cons hv he] at h
      cases e with
      | rxByte b =>
        by_cases hb : b = CR
        · subst hb
          simp only [agentStep, rxByte_CR, State.setEvents_rxQueue] at h
          rcases executeLine_cases s.rxQueue ((s.setEvents es).setRxQueue []) with ⟨e, hp, hx⟩ | ⟨i, hp, hx⟩
          · rw [hx] at h; cases h
            exact .inr (.inr (.inl ⟨es, e, rfl, by simpa using hp, rfl⟩))
          · rw [hx] at h; cases h
            exact .inr (.inr (.inr (.inl ⟨es, i, rfl, by simpa using hp, rfl⟩)))
        · simp only [agentStep, rxByte_of_ne hb] at h
          cases h
          exact .inr (.inl ⟨b, es, rfl, hb, rfl⟩)
      | canPoll a => cases h; exact .inr (.inr (.inr (.inr (.inl ⟨a, es, rfl, rfl⟩))))
      | flush => cases h; exact .inr (.inr (.inr (.inr (.inr (.inl ⟨es, rfl, rfl⟩)))))
      | reset => cases h; exact .inr (.inr (.inr (.inr (.inr (.inr ⟨es, rfl, rfl⟩)))))
  · rw [step_invalid hv] at h; cases h

/-- One more step in front of a run. -/
theorem run_succ {s t : State} (n : Nat) (h : step s = .next t) :
    Host.Core.run Sys2Proof.core (n + 1) s = Host.Core.run Sys2Proof.core n t := by
  have h' : Sys2Proof.core.step s = .next t := h
  simp only [Host.Core.run, h']

end Sys2Proof.Machine
end

