-- ==== Sys2Proof/Laws/Schedule.lean ====
section
/-! SUPPORT. Schedules: no agent's move looks at what is scheduled after it, and what the two silent moves do. -/

namespace Sys2Proof.Machine

theorem pushLine_setEvents (bs : List Byte) (s : State) (es : List Event) :
    pushLine bs (s.setEvents es) = (pushLine bs s).setEvents es := by
  unfold pushLine
  simp only [State.setEvents_cfg, State.setEvents_txQueue]
  cases pushAll s.cfg.txCap s.txQueue bs <;> rfl

theorem transmitDecoded_setEvents (v : Variant) (arg : List Byte) (s : State) (es : List Event) :
    transmitDecoded v arg (s.setEvents es) = ((transmitDecoded v arg s).1.setEvents es, (transmitDecoded v arg s).2) := by
  have h : nextTxAnswer (s.setEvents es) = nextTxAnswer s := rfl
  simp only [transmitDecoded, controllerTransmit, State.setEvents_cfg, h]
  cases decodeFrame s.cfg.acceptLowercaseHex v arg with
  | none => rfl
  | some f => cases nextTxAnswer s <;> rfl

theorem handleSetup_setEvents (arg : List Byte) (s : State) (es : List Event) :
    handleSetup arg (s.setEvents es) = ((handleSetup arg s).1.setEvents es, (handleSetup arg s).2) := by
  simp only [handleSetup, controllerSetBitrate, State.setEvents_cfg, State.setEvents_channelState]
  cases bitrateIndex arg with
  | none => rfl
  | some i =>
    by_cases h : s.channelState = .opened ∧ s.cfg.sWhileOpen = .reject
    · simp only [h, and_self, if_true]
    · simp only [h, if_false]
      cases resolveIndex s.cfg i <;> rfl

/-- A handler's result does not depend on the events still to come. -/
theorem run_setEvents (i : Instr) (s : State) (es : List Event) :
    run i (s.setEvents es) = ((run i s).1.setEvents es, (run i s).2) := by
  cases i with
  | setup arg => exact handleSetup_setEvents arg s es
  | transmitFrame arg => exact transmitDecoded_setEvents _ arg s es
  | transmitExtendedFrame arg => exact transmitDecoded_setEvents _ arg s es
  | enableTimeStamps arg => simp only [run, handleEnableTimeStamps]; cases timestampValue arg <;> rfl
  | _ => rfl

/-- A line's execution does not depend on the events still to come. -/
theorem executeLine_setEvents {line : List Byte} {s t : State} (es : List Event)
    (h : executeLine line s = .next t) : executeLine line (s.setEvents es) = .next (t.setEvents es) := by
  rcases executeLine_cases line s with ⟨e, hp, hx⟩ | ⟨i, hp, hx⟩ <;> rw [hx] at h <;> cases h
  · simp [executeLine, hp, pushLine_setEvents]
  · simp only [executeLine, State.setEvents_cfg, hp, exec_eq, finish_eq, run_setEvents, pushLine_setEvents]

/-- No agent's move depends on the events still to come: a step relation over states is run by any list of events. -/
theorem agentStep_setEvents {e : Event} {s t : State} (es : List Event) (h : agentStep e s = .next t) :
    agentStep e (s.setEvents es) = .next (t.setEvents es) := by
  cases e with
  | rxByte b =>
    simp only [agentStep] at h ⊢
    by_cases hb : b = CR
    · subst hb
      rw [rxByte_CR] at h ⊢
      exact executeLine_setEvents es h
    · rw [rxByte_of_ne hb] at h ⊢
      cases h
      unfold accumulate
      simp only [State.setEvents_cfg, State.setEvents_rxQueue]
      cases push s.cfg.rxCap s.rxQueue b <;> rfl
  | canPoll a =>
    cases h
    cases a with
    | none => rfl
    | some f => exact congrArg _ (pushLine_setEvents _ s.logPoll es)
  | flush =>
    cases h
    simp only [agentStep, flush, State.setEvents_txQueue]
    cases pop s.txQueue <;> rfl
  | reset => cases h; rfl

/-- Everything a silent move can do (R313, R312): hand over the oldest byte, or count a poll. -/
theorem moves_silent_cases {e : Event} {s t : State} (h : Moves e s t) (hs : e.Silent) :
    (e = .flush ∧ ∃ b q, s.txQueue = b :: q ∧ t = (s.setTxQueue q).emitByte b) ∨
    (e = .canPoll none ∧ t = s.logPoll) := by
  obtain ⟨_, he, hst⟩ := h
  rcases hs with rfl | rfl <;> cases hst
  · obtain ⟨b, q, hq⟩ := List.exists_cons_of_ne_nil (he rfl)
    exact .inl ⟨rfl, b, q, hq, flush_cons hq⟩
  · exact .inr ⟨rfl, rfl⟩

@[simp] theorem instant_none {s t : State} : Instant none s t ↔ t = s := Iff.rfl
@[simp] theorem instant_some {e : Event} {s t : State} : Instant (some e) s t ↔ Moves e s t := Iff.rfl

/-- Everything a silent instant can do: hand over the oldest byte, count a poll, or nothing. -/
theorem instant_silent_cases {o : Option Event} {s t : State} (h : Instant o s t) (hs : ∀ e ∈ o, e.Silent) :
    (o = some .flush ∧ ∃ b q, s.txQueue = b :: q ∧ t = (s.setTxQueue q).emitByte b) ∨
    (o = some (.canPoll none) ∧ t = s.logPoll) ∨ (o = none ∧ t = s) := by
  cases o with
  | none => exact .inr (.inr ⟨rfl, h⟩)
  | some e => rcases moves_silent_cases h (hs e rfl) with ⟨rfl, ht⟩ | ⟨rfl, ht⟩ <;> simp [ht]

end Sys2Proof.Machine
end

