-- ==== Sys2Proof/Laws/Timing.lean ====
section
/-! SUPPORT. Everything the bit-timing resolver has tested when it answers a timing, and when it answers one. -/

namespace Sys2Proof.Machine

/-- The tests of R123, all passed, and the timing they give. -/
theorem resolve_eq_some {c : Config} {clockHz bitrate : Nat} {t : TimingConfig} :
    resolve c clockHz bitrate = some t ↔
      (bitrate ≠ 0 ∧ clockHz ≠ 0) ∧ clockHz % (c.q * bitrate) = 0 ∧
      (1 ≤ clockHz / (c.q * bitrate) ∧ clockHz / (c.q * bitrate) ≤ c.prescalerMax.toNat) ∧ SamplePointOk c ∧
      t = { prescaler := BitVec.ofNat 16 (clockHz / (c.q * bitrate)), seg1 := c.seg1, seg2 := c.seg2, sjw := c.sjw } := by
  unfold resolve
  split_ifs with h1 h2 h3 h4
  · simp; omega
  · simp; omega
  · simp; omega
  · constructor
    · rintro h
      cases h
      exact ⟨by omega, by omega, by omega, h4, rfl⟩
    · rintro ⟨_, _, _, _, rfl⟩
      rfl
  · simp [h4]

/-- The prescaler's 16 bits hold the quotient: nothing is cut (R121, D35). -/
theorem resolve_prescaler_toNat {c : Config} {clockHz bitrate : Nat} {t : TimingConfig}
    (h : resolve c clockHz bitrate = some t) : t.prescaler.toNat = clockHz / (c.q * bitrate) := by
  obtain ⟨_, _, ⟨_, hmax⟩, _, rfl⟩ := resolve_eq_some.mp h
  have := c.prescalerMax.isLt
  exact Nat.mod_eq_of_lt (by omega)

end Sys2Proof.Machine
end

