-- ==== Sys2Proof/Tests/Slice0.lean ====
section
/-! SUPPORT. The model's own tests: the vectors of spec/95_test_vectors.md and spec/42_frame_codec.md R168 on small
states, one step each; the checks of WellFormed on ill-formed terms; and, for every statement with hypotheses, states and
operands that meet them all together (`witness_...`). -/

namespace Sys2Proof.Tests
open Sys2Proof.Machine

/-! ### Helpers -/

/-- Reset under reference configuration A with a line accumulated, its terminator next and one answer to come. -/
def atLine (line : List Byte) (answer : TxAnswer) : State :=
  { State.initial Config.referenceA [.rxByte CR] [answer] with rxQueue := line }

/-- The named register of the next state. -/
def after {α : Type} (f : State → α) (s : State) : Option α := (nextState (step s)).map f

/-- The frame of L1.5 and L2.2: standard identifier 0x123 with data AA BB. -/
def frame123 : Frame := ⟨.standard 0x123, [0xAA, 0xBB], by decide⟩

/-- The extended frame of L2.2 with identifier 0x1ABCDEF0 and data 1, 2, 3. -/
def frameExt : Frame := ⟨.extended 0x1ABCDEF0, [1, 2, 3], by decide⟩

/-- The longest frame of L2.2. -/
def frameLong : Frame := ⟨.extended 0x1FFFFFFF, [0xFF, 0xFF, 0xFF, 0xFF, 0xFF, 0xFF, 0xFF, 0xFF], by decide⟩

/-- The line of `frame123`. -/
def line123 : List Byte := [0x74, 0x31, 0x32, 0x33, 0x32, 0x41, 0x41, 0x42, 0x42]

/-- The line of `frameExt`. -/
def lineExt : List Byte :=
  [0x54, 0x31, 0x41, 0x42, 0x43, 0x44, 0x45, 0x46, 0x30, 0x33, 0x30, 0x31, 0x30, 0x32, 0x30, 0x33]

/-! ### WellFormed: each check refuses an ill-formed term -/

theorem test_argFits_refuses_33_bytes :
    ¬ (Instr.openChannel (List.replicate 33 0x78)).ArgFits Config.referenceA ∧
    (Instr.openChannel (List.replicate 32 0x78)).WellFormed Config.referenceA := by decide

theorem test_noTerminator_refuses_terminator :
    ¬ (Instr.getVersion [0x31, 0x0D]).NoTerminator ∧ (Instr.getVersion [0x31, 0x0A]).NoTerminator := by decide

/-! ### Decoding: words written out from the command alphabet (R84), first byte lowest -/

theorem test_decode_channel_commands :
    decodeTableWord 8 0x53 = some (.setup []) ∧ decodeTableWord 16 0x3453 = some (.setup [0x34]) ∧
    decodeTableWord 8 0x73 = some (.setupWithBtr []) ∧ decodeTableWord 8 0x4F = some (.openChannel []) ∧
    decodeTableWord 8 0x43 = some (.closeChannel []) := by decide

theorem test_decode_transmit_commands :
    decodeTableWord 40 0x3033323174 = some (.transmitFrame [0x31, 0x32, 0x33, 0x30]) ∧
    decodeTableWord 8 0x54 = some (.transmitExtendedFrame []) ∧ decodeTableWord 8 0x72 = some (.transmitRtrFrame []) ∧
    decodeTableWord 8 0x52 = some (.transmitExtendedRtrFrame []) := by decide

theorem test_decode_information_commands :
    decodeTableWord 8 0x46 = some (.readStatusFlags []) ∧ decodeTableWord 8 0x4D = some (.setAcceptanceCode []) ∧
    decodeTableWord 8 0x6D = some (.setAcceptanceMask []) ∧ decodeTableWord 8 0x56 = some (.getVersion []) ∧
    decodeTableWord 8 0x4E = some (.getSerialNumber []) ∧
    decodeTableWord 16 0x315A = some (.enableTimeStamps [0x31]) := by decide

/-- L2.4: the illegal lines, each by name. -/
theorem test_parse_rejects :
    parse Config.referenceA [] = .error .emptyLine ∧
    parse Config.referenceA [0x58] = .error (.unknownCommand 0x58) ∧
    parse Config.referenceA [0x20, 0x56] = .error (.unknownCommand 0x20) ∧
    parse Config.referenceA [0xFF] = .error (.unknownCommand 0xFF) ∧
    parse Config.referenceA (0x4F :: List.replicate 32 0x78) = .ok (.openChannel (List.replicate 32 0x78)) ∧
    parse Config.referenceA (0x73 :: List.replicate 33 0x30) = .error .argumentTooLong :=
  ⟨rfl, rfl, rfl, rfl, rfl, rfl⟩

/-- R97: what the host sends for `S4`. -/
theorem test_wire : wire (.setup [0x34]) = [0x53, 0x34, 0x0D] := by decide

/-- Every row of the opcode table runs as the first command after reset. -/
theorem test_first_step_after_reset :
    ([0x53, 0x73, 0x4F, 0x43, 0x74, 0x54, 0x72, 0x52, 0x46, 0x4D, 0x6D, 0x56, 0x4E, 0x5A] : List Nat).all (fun w =>
      (nextState (step (State.reset.withFetchWord 8 w))).isSome) = true := by decide

/-! ### The queue block (L2.8) -/

theorem test_push_full_refused :
    push 4 [0x41, 0x42, 0x43] 0x44 = some [0x41, 0x42, 0x43, 0x44] ∧ push 4 [0x41, 0x42, 0x43, 0x44] 0x45 = none := by
  decide

theorem test_pushAll_stores_nothing_on_overflow :
    pushAll 4 [0x41, 0x42, 0x43] [0x44, 0x45] = none ∧
    pushAll 4 [0x41, 0x42, 0x43, 0x44] [] = some [0x41, 0x42, 0x43, 0x44] := by decide

theorem test_pop_oldest : pop [0x56, 0x0D] = some (0x56, [0x0D]) ∧ pop ([] : List Byte) = none := by decide

/-- The ring buffer of L2.8 after its last `Push`, whose write wrapped to slot 0. -/
def ring : Ring := ⟨4, [0x45, 0x42, 0x43, 0x44], 1, 5⟩

theorem test_ring_wraps :
    ringPush ⟨4, [0x41, 0x42, 0x43, 0x44], 1, 4⟩ 0x45 = some ring ∧ ringLen ring = 4 ∧
    ringDrainAll ring = ([0x42, 0x43, 0x44, 0x45], ⟨4, [0x45, 0x42, 0x43, 0x44], 5, 5⟩) := by decide

theorem test_ring_pushAll_all_or_nothing :
    ringPushAll ⟨4, [0x41, 0x42, 0x43, 0], 0, 3⟩ [0x44, 0x45] = none ∧
    (ringPushAll ⟨4, [0x41, 0x42, 0x43, 0], 2, 3⟩ [0x44, 0x45]).map ringData = some [0x43, 0x44, 0x45] := by decide

/-! ### Resolver (L2.1) -/

theorem test_resolve_exact_only :
    resolve Config.referenceA 12000000 125000 = some ⟨6, 13, 2, 1⟩ ∧ resolve Config.referenceA 8000001 125000 = none ∧
    resolve Config.referenceA 16000000 1000000 = some ⟨1, 13, 2, 1⟩ := by decide

theorem test_resolve_prescaler_range :
    resolve Config.referenceA 163840000 10000 = some ⟨1024, 13, 2, 1⟩ ∧
    resolve Config.referenceA 164000000 10000 = none ∧ resolve Config.referenceA 8000000 0 = none ∧
    resolve Config.referenceA 0 10000 = none := by decide

theorem test_sample_point_ends :
    SamplePointOk { Config.referenceA with seg1 := 11, seg2 := 4 } ∧
    ¬ SamplePointOk { Config.referenceA with seg1 := 10, seg2 := 5 } ∧
    ¬ SamplePointOk { Config.referenceA with seg1 := 14, seg2 := 1 } := by decide

/-! ### Codec (L2.2, R168) -/

theorem test_encode :
    encodeFrame frame123 true = line123 ∧ encodeFrame frameExt true = lineExt ∧
    encodeFrame ⟨.standard 0x00A, [0x0A], by decide⟩ false = [0x30, 0x30, 0x41, 0x31, 0x30, 0x41] := by decide

/-- `"1230"`, `"7FF0"`, `"8000"`, `"12G0"`, `"123G"`, `"123"`. -/
theorem test_decode_standard :
    decodeFrame true .transmitFrame [0x31, 0x32, 0x33, 0x30] = some ⟨.standard 0x123, [], by decide⟩ ∧
    decodeFrame true .transmitFrame [0x37, 0x46, 0x46, 0x30] = some ⟨.standard 0x7FF, [], by decide⟩ ∧
    decodeFrame true .transmitFrame [0x38, 0x30, 0x30, 0x30] = none ∧
    decodeFrame true .transmitFrame [0x31, 0x32, 0x47, 0x30] = none ∧
    decodeFrame true .transmitFrame [0x31, 0x32, 0x33, 0x47] = none ∧
    decodeFrame true .transmitFrame [0x31, 0x32, 0x33] = none := by decide

/-- `"7ff1ab"` under both values of the parameter; `"1231A"`, `"1231ZZ"`, and `"1239"` with 18 digits. -/
theorem test_decode_data :
    decodeFrame true .transmitFrame [0x37, 0x66, 0x66, 0x31, 0x61, 0x62] = some ⟨.standard 0x7FF, [0xAB], by decide⟩ ∧
    decodeFrame false .transmitFrame [0x37, 0x66, 0x66, 0x31, 0x61, 0x62] = none ∧
    decodeFrame true .transmitFrame [0x31, 0x32, 0x33, 0x31, 0x41] = none ∧
    decodeFrame true .transmitFrame [0x31, 0x32, 0x33, 0x31, 0x5A, 0x5A] = none ∧
    decodeFrame true .transmitFrame ([0x31, 0x32, 0x33, 0x39] ++ List.replicate 18 0x30) = none := by decide

/-- `"000001232AABB"`, `"200000000"`, `"12345678"`, `"1230"`. -/
theorem test_decode_extended :
    decodeFrame true .transmitExtendedFrame
      [0x30, 0x30, 0x30, 0x30, 0x30, 0x31, 0x32, 0x33, 0x32, 0x41, 0x41, 0x42, 0x42] =
      some ⟨.extended 0x123, [0xAA, 0xBB], by decide⟩ ∧
    decodeFrame true .transmitExtendedFrame [0x32, 0x30, 0x30, 0x30, 0x30, 0x30, 0x30, 0x30, 0x30] = none ∧
    decodeFrame true .transmitExtendedFrame [0x31, 0x32, 0x33, 0x34, 0x35, 0x36, 0x37, 0x38] = none ∧
    decodeFrame true .transmitExtendedFrame [0x31, 0x32, 0x33, 0x30] = none := by decide

/-! ### The commands, one step each (L2.5 to L2.7) -/

theorem test_S_selects : after (fun t => (t.bitrate, timingOut t, t.txQueue)) (atLine [0x53, 0x34] .ok) =
    some (some 4, some ⟨4, 13, 2, 1⟩, [0x0D]) := by decide

theorem test_S_rejected_while_open :
    after (fun t => (t.bitrate, t.channelState, t.txQueue))
      { atLine [0x53, 0x35] .ok with bitrate := some 4, channelState := .opened } =
    some (some 4, .opened, [0x07]) := by decide

theorem test_s_not_implemented :
    after (fun t => (t.bitrate, t.txQueue)) (atLine [0x73, 0x30, 0x33, 0x31, 0x43] .ok) = some (none, [0x07]) := by decide

theorem test_O_opens : after (fun t => (t.channelState, canEnabled t, t.txQueue)) (atLine [0x4F, 0x31] .ok) =
    some (.opened, 1, [0x0D]) := by decide

theorem test_C_closes_keeps_bitrate :
    after (fun t => (t.channelState, t.bitrate, t.txQueue))
      { atLine [0x43] .ok with channelState := .opened, bitrate := some 4 } = some (.closed, some 4, [0x0D]) := by decide

/-- `"t7ff1ab\r"` is echoed in upper case. -/
theorem test_t_echoes_uppercase :
    after (fun t => (t.canReq, t.txQueue)) (atLine [0x74, 0x37, 0x66, 0x66, 0x31, 0x61, 0x62] .ok) =
    some ([(⟨.standard 0x7FF, [0xAB], by decide⟩, .ok)], [0x74, 0x37, 0x46, 0x46, 0x31, 0x41, 0x42, 0x0D]) := by decide

/-- `"t1233AABB\r"` (L1.5). -/
theorem test_t_wrong_count_offers_nothing :
    after (fun t => (t.canReq, t.txQueue)) (atLine [0x74, 0x31, 0x32, 0x33, 0x33, 0x41, 0x41, 0x42, 0x42] .ok) =
    some ([], [0x07]) := by decide

theorem test_T_echoes : after (fun t => (t.canReq, t.txQueue)) (atLine lineExt .ok) =
    some ([(frameExt, .ok)], lineExt ++ [0x0D]) := by decide

/-- P8, with an extended frame. -/
theorem test_T_refused : after (fun t => (t.canReq, canOut t, t.txQueue)) (atLine lineExt .bufferOverrun) =
    some ([(frameExt, .bufferOverrun)], [], [0x07]) := by decide

theorem test_r_not_implemented :
    after (fun t => (t.canReq, t.txQueue)) (atLine [0x72, 0x31, 0x32, 0x33, 0x30] .ok) = some ([], [0x07]) := by decide

theorem test_R_not_implemented :
    after (fun t => (t.canReq, t.txQueue)) (atLine [0x52] .ok) = some ([], [0x07]) := by decide

theorem test_F_reads_and_keeps :
    after (fun t => (t.flags.rxQueueFull, t.txQueue))
      { atLine [0x46] .ok with flags := ⟨true, true, false, false, false, false, false⟩ } =
    some (true, [0x46, 0x30, 0x33, 0x0D]) := by decide

theorem test_M_not_implemented : after (·.txQueue) (atLine [0x4D, 0x30] .ok) = some [0x07] := by decide

theorem test_m_not_implemented : after (·.txQueue) (atLine [0x6D, 0x46] .ok) = some [0x07] := by decide

theorem test_V_answers :
    after (·.txQueue) (atLine [0x56, 0x31] .ok) = some [0x56, 0x46, 0x41, 0x30, 0x31, 0x0D] := by decide

/-- L1.4 with the serial number DE AD BE EF: six raw bytes. -/
theorem test_N_answers_raw :
    after (·.txQueue) { atLine [0x4E] .ok with serialNumber := ⟨0xDE, 0xAD, 0xBE, 0xEF⟩ } =
    some [0x4E, 0xDE, 0xAD, 0xBE, 0xEF, 0x0D] := by decide

theorem test_Z_sets_not_inverts :
    after (fun t => (t.timestamps, t.txQueue)) { atLine [0x5A, 0x31, 0x30] .ok with timestamps := true } =
    some (true, [0x0D]) := by decide

theorem test_Z_rejects_2 : after (fun t => (t.timestamps, t.txQueue)) (atLine [0x5A, 0x32] .ok) =
    some (false, [0x07]) := by decide

/-! ### The agents (L2.9, L2.10) -/

theorem test_line_feed_is_data :
    after (·.rxQueue) (State.initial Config.referenceA [.rxByte 0x0A] []) = some [0x0A] := by decide

theorem test_inbound_overflow :
    after (fun t => (t.rxQueue.length, t.flags.rxQueueFull, t.txQueue))
      { State.initial Config.referenceA [.rxByte 0x41] [] with rxQueue := List.replicate 64 0x41 } =
    some (64, true, []) := by decide

/-- `"V"` and 63 more bytes, as a truncated line leaves them (P4). -/
theorem test_truncated_line_rings :
    after (fun t => (t.rxQueue, t.txQueue)) (atLine (0x56 :: List.replicate 63 0x41) .ok) = some ([], [0x07]) := by decide

/-- P5: a bare terminator that does not fit; the channel opens all the same. -/
theorem test_outbound_overflow :
    after (fun t => (t.channelState, t.flags.txQueueFull, t.txQueue.length))
      { atLine [0x4F] .ok with txQueue := List.replicate 64 0x30 } = some (.opened, true, 64) := by decide

theorem test_poll_exact_fit :
    after (fun t => (t.txQueue.length, t.flags.txQueueFull))
      { State.initial Config.referenceA [.canPoll (some frameLong)] [] with txQueue := List.replicate 37 0x30 } =
    some (64, false) := by decide

theorem test_poll_overflow_drops_line :
    after (fun t => (t.txQueue.length, t.flags.txQueueFull))
      { State.initial Config.referenceA [.canPoll (some frameLong)] [] with txQueue := List.replicate 38 0x30 } =
    some (38, true) := by decide

theorem test_flush_one_byte :
    after (fun t => (t.txQueue, t.serOut))
      { State.initial Config.referenceA [.flush] [] with txQueue := [0x56, 0x46] } = some ([0x46], [0x56]) := by decide

/-- R316: nothing is flushed unless the flusher is scheduled. -/
theorem test_no_event_no_flush :
    let s : State := { State.reset with txQueue := [0x07] }
    nextState (step s) = some s := by decide

theorem test_reset_clears_flags_and_queues :
    after (fun t => (t.flags, t.bitrate, t.txQueue, t.rxQueue))
      { State.initial Config.referenceA [.reset] [] with
        flags := ⟨true, true, false, false, false, false, false⟩, bitrate := some 4, txQueue := [0x07], rxQueue := [0x56] } =
    some (.clear, none, [], []) := by decide

/-- U19: a parameter record outside R9 is refused. -/
theorem test_invalid_parameters_refused :
    step (State.initial { Config.referenceA with rxCap := 33 } [] []) = .refused .invalidParameters := rfl

/-- The numbers of the error kinds, in the source's order (R330). -/
theorem test_error_codes :
    ([.queueFull, .invalidCommand, .notImplemented, .invalidTiming, .bufferOverrun] : List ErrorKind).map ErrorKind.code =
    [0, 1, 2, 3, 4] := by decide

/-! ### Witnesses: for every statement with hypotheses, what meets them all together, clause by clause -/

/-- Reset with a full inbound queue and one more byte to come. -/
def fullRx (e : Event) : State :=
  { State.initial Config.referenceA [e] [] with rxQueue := List.replicate 64 0x41 }

/-- Reset with a full outbound queue. -/
def fullTx (e : Event) : State :=
  { State.initial Config.referenceA [e] [] with txQueue := List.replicate 64 0x30 }

/-- The parameters of reference A with the other policy for `S`. -/
def reconfiguring : Config := { Config.referenceA with sWhileOpen := .reconfigureAndClose }

theorem witness_PushAppendsOneByteOrIsRefused :
    ([0x41, 0x42] : List Byte).length = 2 ∧ ([0x41] : List Byte).length ≠ 2 ∧ (0x43 : Byte) ≠ CR ∧
    (fullRx .flush).rxQueue.length = (fullRx .flush).cfg.rxCap := by decide

theorem witness_PushAllStoresAllOrNothing :
    4 - ([0x0D] : List Byte).length < ([0x56, 0x46, 0x41, 0x30] : List Byte).length ∧
    ([0x56, 0x46, 0x41] : List Byte).length ≤ 4 - ([0x0D] : List Byte).length := by decide

theorem witness_RingBufferImplementsQueue :
    RingWf ring ∧ RingWf ⟨4, [0, 0, 0, 0], 7, 7⟩ ∧ (ringPush ⟨4, [0, 0, 0, 0], 7, 7⟩ 0x41).isSome = true ∧
    (ringPushAll ⟨4, [0, 0, 0, 0], 7, 7⟩ [1, 2, 3, 4]).isSome = true ∧ (ringPop ring).isSome = true := by decide

theorem witness_HexFieldsReadBack : 0x1FFFFFFF < 16 ^ 8 ∧ 0 < 16 ^ 0 := by decide

theorem witness_DecodeThenEncodeUppercases :
    decodeFrame true .transmitFrame [0x37, 0x66, 0x66, 0x30] = some ⟨.standard 0x7FF, [], by decide⟩ ∧
    decodeFrame true .transmitFrame [0x37, 0x46, 0x46, 0x30] = some ⟨.standard 0x7FF, [], by decide⟩ ∧
    ∀ b ∈ ([0x37, 0x46, 0x46, 0x30] : List Byte), ¬ (0x61 ≤ b.toNat ∧ b.toNat ≤ 0x66) := by decide

theorem witness_DecodeAcceptsExactlyWellFormedArguments :
    decodeFrame true .transmitExtendedFrame lineExt.tail = some frameExt ∧
    Variant.transmitExtendedFrame = kindVariant (frameKind frameExt) ∧ 2 < frameExt.data.length := by decide

theorem witness_ParseAndEncodeAgree :
    (Instr.openChannel (List.replicate 32 0x78)).WellFormed Config.referenceA ∧ (Instr.setup []).WellFormed Config.referenceA ∧
    parse Config.referenceA (0x4F :: List.replicate 32 0x78) = .ok (.openChannel (List.replicate 32 0x78)) :=
  ⟨by decide, by decide, rfl⟩

theorem witness_ResolveIsExactDivision :
    Config.referenceA.q = 1 + Config.referenceA.seg1.toNat + Config.referenceA.seg2.toNat ∧
    resolve Config.referenceA 163840000 10000 = some ⟨1024, 13, 2, 1⟩ ∧ 1024 ≤ Config.referenceA.prescalerMax.toNat ∧
    1024 * Config.referenceA.q * 10000 = 163840000 ∧ SamplePointOk Config.referenceA := by decide

theorem witness_EightHundredKilobitForcesOneMegabit :
    (resolve Config.referenceA 64000000 500000).isSome = true ∧
    (resolve Config.referenceA 64000000 800000).isSome = true ∧
    bitrateHz Config.referenceA 6 = 500000 ∧ bitrateHz Config.referenceA 7 = 800000 := by decide

theorem witness_SetupSelectsBitrate :
    (0x30 : Byte).toNat = 0x30 + (0 : Fin 9).val ∧ State.reset.channelState = .closed ∧ State.reset.Room 1 ∧
    resolve Config.referenceA Config.referenceA.clockHz (bitrateHz Config.referenceA 0) = some ⟨50, 13, 2, 1⟩ := by decide

/-- The Open channel under the other policy, with the last digit, whose index resolves at 16 MHz. -/
theorem witness_SetupSelectsBitrate_open :
    let s : State := { State.initial { reconfiguring with clockHz := 16000000 } [] [] with channelState := .opened }
    (0x38 : Byte).toNat = 0x30 + (8 : Fin 9).val ∧ s.cfg.sWhileOpen = .reconfigureAndClose ∧ s.Room 1 ∧
    resolve s.cfg s.cfg.clockHz (bitrateHz s.cfg 8) = some ⟨1, 13, 2, 1⟩ := by decide

theorem witness_SetupFailureRingsBell_digit :
    ((0x2F : Byte).toNat < 0x30 ∨ 0x38 < (0x2F : Byte).toNat) ∧ ((0x39 : Byte).toNat < 0x30 ∨ 0x38 < (0x39 : Byte).toNat) ∧
    (∀ a rest, ([] : List Byte) = a :: rest → a.toNat < 0x30 ∨ 0x38 < a.toNat) ∧ State.reset.Room 1 :=
  ⟨by decide, by decide, fun _ _ h => (List.noConfusion rfl (heq_of_eq h)), by decide⟩

theorem witness_SetupFailureRingsBell_open :
    let s : State := { State.reset with channelState := .opened }
    s.channelState = .opened ∧ s.cfg.sWhileOpen = .reject ∧ s.Room 1 := by decide

theorem witness_SetupFailureRingsBell_timing :
    (0x37 : Byte).toNat = 0x30 + (7 : Fin 9).val ∧ State.reset.Room 1 ∧
    resolve State.reset.cfg State.reset.cfg.clockHz (bitrateHz State.reset.cfg 7) = none := by decide

theorem witness_UnsupportedTopBitrateRingsBell :
    TopUnrepresentable State.reset.cfg ∧ TopUnrepresentable Config.referenceB ∧ State.reset.Room 1 := by decide

theorem witness_OpenCommandOpensChannel :
    { State.reset with txQueue := List.replicate 63 0x30 }.Room 1 ∧
    (List.replicate 32 0x31 : List Byte).length ≤ State.reset.cfg.cmdArgCap := by decide

theorem witness_CloseCommandClosesChannel :
    { State.reset with channelState := .opened, txQueue := List.replicate 63 0x30 }.Room 1 ∧
    ([] : List Byte).length ≤ State.reset.cfg.cmdArgCap := by decide

theorem witness_UnimplementedCommandsRingBell :
    (0x73, Instr.setupWithBtr []) ∈ ([(0x73, .setupWithBtr []), (0x72, .transmitRtrFrame []),
      (0x52, .transmitExtendedRtrFrame []), (0x4D, .setAcceptanceCode []), (0x6D, .setAcceptanceMask [])] :
      List (Byte × Instr)) ∧ State.reset.Room 1 ∧
    (List.replicate 32 0x30 : List Byte).length ≤ State.reset.cfg.cmdArgCap ∧
    State.reset.cfg.cmdArgCap < (List.replicate 33 0x30 : List Byte).length := by decide

theorem witness_AcceptedFrameIsEchoed :
    nextTxAnswer (atLine [] .ok) = .ok ∧ (atLine [] .ok).Room ((encodeFrame frame123 true).length + 1) ∧
    decodeFrame (atLine [] .ok).cfg.acceptLowercaseHex .transmitFrame line123.tail = some frame123 := by decide

theorem witness_AcceptedFrameIsEchoed_extended :
    nextTxAnswer (atLine [] .ok) = .ok ∧ (atLine [] .ok).Room ((encodeFrame frameExt true).length + 1) ∧
    decodeFrame (atLine [] .ok).cfg.acceptLowercaseHex .transmitExtendedFrame lineExt.tail = some frameExt := by decide

theorem witness_RefusedFrameRingsBell :
    nextTxAnswer (atLine [] .bufferOverrun) = .bufferOverrun ∧ (atLine [] .bufferOverrun).Room 1 ∧
    decodeFrame (atLine [] .bufferOverrun).cfg.acceptLowercaseHex .transmitFrame line123.tail = some frame123 ∧
    decodeFrame (atLine [] .bufferOverrun).cfg.acceptLowercaseHex .transmitExtendedFrame lineExt.tail = some frameExt := by
  decide

theorem witness_MalformedTransmitOffersNothing :
    State.reset.Room 1 ∧ decodeFrame State.reset.cfg.acceptLowercaseHex .transmitFrame [] = none ∧
    decodeFrame State.reset.cfg.acceptLowercaseHex .transmitExtendedFrame [0x31] = none := by decide

theorem witness_EveryFrameCanBeSent :
    (atLine (encodeFrame frameLong true) .ok).cfg.Valid ∧
    (atLine (encodeFrame frameLong true) .ok).events = .rxByte CR :: [] ∧
    (atLine (encodeFrame frameLong true) .ok).rxQueue = encodeFrame frameLong true ∧
    nextTxAnswer (atLine (encodeFrame frameLong true) .ok) = .ok ∧
    (atLine (encodeFrame frameLong true) .ok).Room ((encodeFrame frameLong true).length + 1) := by decide

theorem witness_StatusCommandReadsFlags :
    { State.reset with txQueue := List.replicate 60 0x30 }.Room 4 ∧ State.reset.Inv ∧
    ¬ { State.reset with txQueue := List.replicate 61 0x30 }.Room 4 ∧
    { State.reset with txQueue := List.replicate 61 0x30 }.txQueue.length ≤ State.reset.cfg.txCap := by decide

theorem witness_VersionCommandAnswersVersion :
    { State.reset with txQueue := List.replicate 58 0x30 }.Room 6 ∧ State.reset.hardwareVersion = 0xFA ∧
    State.reset.softwareVersion = 0x01 := by decide

theorem witness_SerialNumberCommandAnswersRawBytes : State.reset.Room 6 := by decide

theorem witness_TimeStampCommandSetsBit :
    State.reset.Room 1 ∧ (0x2F : Byte) ≠ 0x30 ∧ (0x2F : Byte) ≠ 0x31 ∧ (0x32 : Byte) ≠ 0x30 ∧ (0x32 : Byte) ≠ 0x31 := by
  decide

theorem witness_EveryCommandAnswersOneWholeReply :
    (atLine [] .ok).Room (replyLine (run (.transmitExtendedFrame (encodeFrame frameLong false)) (atLine [] .ok)).2).length := by
  decide

theorem witness_UnfittingReplyIsDroppedAndFlagged :
    ¬ (fullTx .flush).Room (replyLine (run (.openChannel []) (fullTx .flush)).2).length ∧
    (fullTx .flush).txQueue.length ≤ (fullTx .flush).cfg.txCap := by decide

theorem witness_RepliesHaveOneTo27Bytes : State.reset.cfg.Valid ∧ State.reset.txQueue = [] := by decide

theorem witness_FailingHandlerChangesNothing :
    (run (.setup [0x38]) State.reset).2 = .error .invalidTiming ∧
    (run (.transmitFrame line123.tail) (atLine [] .bufferOverrun)).2 = .error .bufferOverrun := by decide

theorem witness_ReadOnlyCommandsChangeNoRegister :
    Instr.readStatusFlags [] ∈ ([.setupWithBtr [], .transmitRtrFrame [], .transmitExtendedRtrFrame [],
      .setAcceptanceCode [], .setAcceptanceMask [], .readStatusFlags [], .getVersion [], .getSerialNumber []] : List Instr) ∧
    ∃ t, exec (.readStatusFlags []) State.reset = .next t := ⟨by decide, _, rfl⟩

theorem witness_ChannelCommandsChangeOnlyChannelRegisters :
    (∃ t, exec (.setup [0x34]) State.reset = .next t) ∧ (∃ t, exec (.openChannel [0x34]) State.reset = .next t) ∧
    ∃ t, exec (.closeChannel [0x34]) State.reset = .next t := ⟨⟨_, rfl⟩, ⟨_, rfl⟩, ⟨_, rfl⟩⟩

theorem witness_TransmitCommandsChangeNoRegister :
    Instr.transmitFrame line123.tail ∈
      ([.transmitFrame line123.tail, .transmitExtendedFrame line123.tail] : List Instr) ∧
    ∃ t, exec (.transmitFrame line123.tail) (atLine [] .ok) = .next t := ⟨by decide, _, rfl⟩

theorem witness_TimeStampCommandChangesOnlyItsBit :
    ∃ t, exec (.enableTimeStamps [0x31]) State.reset = .next t := ⟨_, rfl⟩

theorem witness_StepRunsTheDecodedCommand :
    (atLine [0x53, 0x34] .ok).cfg.Valid ∧ (atLine [0x53, 0x34] .ok).events = .rxByte CR :: [] ∧
    parse (atLine [0x53, 0x34] .ok).cfg (atLine [0x53, 0x34] .ok).rxQueue = .ok (.setup [0x34]) :=
  ⟨by decide, by decide, rfl⟩

theorem witness_FetchedWordRunsNext :
    State.reset.cfg.Valid ∧ State.reset.cfg.cmdArgCap = 32 ∧ decodeTableWord 16 0x3453 = some (.setup [0x34]) := by decide

theorem witness_IllegalLineRingsBell :
    (atLine [0x58] .ok).cfg.Valid ∧ (atLine [0x58] .ok).events = .rxByte CR :: [] ∧
    parse (atLine [0x58] .ok).cfg (atLine [0x58] .ok).rxQueue = .error (.unknownCommand 0x58) ∧
    (atLine [0x58] .ok).Room 1 := ⟨by decide, by decide, rfl, by decide⟩

theorem witness_IllegalLineRingsBell_full :
    (fullTx (.rxByte CR)).cfg.Valid ∧ (fullTx (.rxByte CR)).events = .rxByte CR :: [] ∧
    parse (fullTx (.rxByte CR)).cfg (fullTx (.rxByte CR)).rxQueue = .error .emptyLine ∧
    ¬ (fullTx (.rxByte CR)).Room 1 := ⟨by decide, by decide, rfl, by decide⟩

theorem witness_ByteIsAccumulatedOrDropped :
    (fullRx (.rxByte 0x41)).cfg.Valid ∧ (fullRx (.rxByte 0x41)).events = .rxByte 0x41 :: [] ∧ (0x41 : Byte) ≠ CR ∧
    (fullRx (.rxByte 0x41)).rxQueue.length = (fullRx (.rxByte 0x41)).cfg.rxCap ∧
    { fullRx (.rxByte 0x41) with rxQueue := List.replicate 63 0x41 }.rxQueue.length <
      (fullRx (.rxByte 0x41)).cfg.rxCap := by decide

theorem witness_WholeLineRunsAtItsTerminator :
    let s : State := State.initial Config.referenceA (sendLine [0x56]) []
    s.cfg.Valid ∧ s.rxQueue = [] ∧ CR ∉ ([0x56] : List Byte) ∧ ([0x56] : List Byte).length ≤ s.cfg.rxCap ∧
    s.events = sendLine [0x56] ++ [] := by decide

theorem witness_OverlongLineNeverRuns :
    let line : List Byte := List.replicate 65 0x56
    let s : State := State.initial Config.referenceA (sendLine line) []
    s.cfg.Valid ∧ s.rxQueue = [] ∧ CR ∉ line ∧ s.cfg.rxCap < line.length ∧ s.events = sendLine line ++ [] ∧ s.Room 1 := by
  decide

theorem witness_FlushHandsOverOldestByte :
    let s : State := { State.initial Config.referenceA [.flush] [] with txQueue := [0x07] }
    s.cfg.Valid ∧ s.events = .flush :: [] ∧ s.txQueue = 0x07 :: [] := by decide

/-- Two bytes queued, a poll answered `empty` and two flushes to come; and a quiescent state with a poll to come. -/
theorem witness_FlushingReachesQuiescence :
    let s : State := { State.initial Config.referenceA [.canPoll none, .flush, .flush] [] with txQueue := [0x56, 0x0D] }
    (s.cfg.Valid ∧ (∀ e ∈ s.events, e.Silent) ∧ s.txQueue.length ≤ s.events.count .flush) ∧
    (State.initial Config.referenceA [.canPoll none] []).cfg.Valid ∧
    (State.initial Config.referenceA [.canPoll none] []).Quiescent := by decide

theorem witness_PollForwardsReceivedFrame :
    let s : State := State.initial Config.referenceA [.canPoll (some frameLong)] []
    s.cfg.Valid ∧ s.events = .canPoll (some frameLong) :: [] ∧
    { s with txQueue := List.replicate 37 0x30 }.Room ((encodeFrame frameLong true).length + 1) ∧
    ¬ { s with txQueue := List.replicate 38 0x30 }.Room ((encodeFrame frameLong true).length + 1) ∧
    (State.initial Config.referenceA [.canPoll none] []).events = .canPoll none :: [] := by decide

theorem witness_ResetStepRestoresResetValues :
    (fullTx .reset).cfg.Valid ∧ (fullTx .reset).events = .reset :: [] := by decide

theorem witness_ResetMeetsInvariant : Config.referenceA.Valid ∧ Config.referenceB.Valid ∧ reconfiguring.Valid := by decide

/-- A state that meets the invariant after an overflow, with a bitrate stored. -/
theorem witness_EveryStepKeepsInvariant :
    let s : State := { fullTx (.rxByte CR) with
      bitrate := some 4, flags := ⟨true, true, false, false, false, false, false⟩, rxQueue := [0x4F] }
    s.Inv ∧ (nextState (step s)).isSome = true := by decide

theorem witness_StepCompletesExactlyOnValidParameters :
    State.reset.cfg.Valid ∧ ¬ (State.initial { Config.referenceA with txCap := 26 } [] []).cfg.Valid := by decide

theorem witness_FlagsLatchUntilReset :
    (∃ t, step (fullRx (.rxByte 0x41)) = .next t) ∧ ∀ es, (fullRx (.rxByte 0x41)).events ≠ .reset :: es :=
  ⟨⟨_, rfl⟩, fun _ h => by simp [fullRx, State.initial] at h⟩

theorem witness_OnlyTheirCommandsMoveChannelAndBitrate :
    (∃ t, step (atLine [0x4F] .ok) = .next t ∧ t.channelState ≠ (atLine [0x4F] .ok).channelState) ∧
    (∃ t, step (atLine [0x53, 0x34] .ok) = .next t ∧ t.bitrate ≠ (atLine [0x53, 0x34] .ok).bitrate) ∧
    (atLine [0x4F] .ok).cfg.sWhileOpen = .reject ∧ (∀ line es, (atLine line .ok).events ≠ .reset :: es) :=
  ⟨⟨_, rfl, by decide⟩, ⟨_, rfl, by decide⟩, rfl, fun _ _ h => by simp [atLine, State.initial] at h⟩

theorem witness_OutputIsASequenceOfWholeLines :
    Event.reset ∉ (atLine [0x56] .ok).events ∧ ∃ t, Host.Core.run Sys2Proof.core 1 (atLine [0x56] .ok) = .next t :=
  ⟨by decide, _, rfl⟩

theorem witness_FlushCommutesWithReceive :
    let s : State := { atLine [0x56] .ok with txQueue := List.replicate 37 0x30 }
    s.txQueue ≠ [] ∧ s.Room 27 ∧ ∃ t, rxByte CR s = .next t := ⟨by decide, by decide, _, rfl⟩

theorem witness_AgentsTouchOnlyTheirState : ∃ t, rxByte CR (atLine line123 .ok) = .next t := ⟨_, rfl⟩

theorem witness_TimeStampBitIsNeverObserved : ∃ t, step (atLine [0x5A, 0x31] .ok) = .next t := ⟨_, rfl⟩

/-- One byte queued: a poll answered `empty`, then the flusher hands the byte over, then nothing moves any more. -/
theorem witness_FairExecutionsReachQuiescence :
    let σ : Schedule := fun n => match n with
      | 0 => some (.canPoll none)
      | 1 => some .flush
      | _ + 2 => none
    let x : Nat → State := fun n => match n with
      | 0 => { State.reset with txQueue := [0x07] }
      | 1 => { State.reset with txQueue := [0x07], canPolls := 1 }
      | _ + 2 => { State.reset with serOut := [0x07], canPolls := 1 }
    Execution σ x ∧ WeaklyFair σ x ∧ SilentFrom σ 0 := by
  have hv : Config.referenceA.Valid := by decide
  refine ⟨fun n => ?_, fun n h => absurd rfl (h (n + 2) (by omega)), fun n _ e he => ?_⟩ <;>
    rcases n with _ | _ | n
  · exact ⟨hv, by decide, rfl⟩
  · exact ⟨hv, by decide, rfl⟩
  · rfl
  · cases he; exact .inr rfl
  · cases he; exact .inl rfl
  · cases he

/-- R316: the poller need not run at all: an idle machine with nothing queued is a fair execution. -/
theorem test_poller_need_not_run :
    Execution (fun _ => none) (fun _ => State.reset) ∧ WeaklyFair (fun _ => none) (fun _ => State.reset) ∧
      SilentFrom (fun _ => none) 0 :=
  ⟨fun _ => rfl, fun n h => absurd rfl (h n (Nat.le_refl n)), fun _ _ _ he => by cases he⟩

end Sys2Proof.Tests
end

