-- ==== Sys2Proof/Proofs/Flags.lean ====
section
/-! The status flags along a step (R26, R27): what each agent's move may do to them, then the obligation. -/

namespace Sys2Proof.Machine

/-- The flags `g` are the flags `f`, or `f` with one of the two queue flags set: the only writes of a flag there are
beside reset (R27). -/
def LatchedFrom (f g : StatusFlags) : Prop := g = f ∨ g = latchRxQueueFull f ∨ g = latchTxQueueFull f

theorem LatchedFrom.flagsKept {f g : StatusFlags} (h : LatchedFrom f g) : FlagsKept f g := by
  rcases h with rfl | rfl | rfl <;> simp [FlagsKept, latchRxQueueFull, latchTxQueueFull]

theorem LatchedFrom.writerless_eq {f g : StatusFlags} (h : LatchedFrom f g) :
    g.errorWarning = f.errorWarning ∧ g.dataOverrun = f.dataOverrun ∧ g.errorPassive = f.errorPassive ∧
    g.arbitrationLost = f.arbitrationLost ∧ g.busError = f.busError := by
  rcases h with rfl | rfl | rfl <;> exact ⟨rfl, rfl, rfl, rfl, rfl⟩

theorem pushLine_latchedFrom (bs : List Byte) (s : State) : LatchedFrom s.flags (pushLine bs s).flags :=
  (pushLine_flags bs s).imp_right .inr

theorem accumulate_latchedFrom (b : Byte) (s : State) : LatchedFrom s.flags (accumulate b s).flags := by
  rcases accumulate_cases b s with ⟨_, h⟩ | ⟨_, h⟩ <;> rw [h]
  · exact .inl rfl
  · exact .inr (.inl rfl)

theorem canPoll_latchedFrom (a : Option Frame) (s : State) : LatchedFrom s.flags (canPoll a s).flags := by
  cases a with
  | none => exact .inl rfl
  | some f => exact pushLine_latchedFrom _ s.logPoll

theorem flush_flags (s : State) : (flush s).flags = s.flags := by
  cases h : s.txQueue with
  | nil => rw [flush_nil h]
  | cons b q => simp [flush_cons h]

/-- Every step but reset keeps the flags or sets one of the two queue flags. -/
theorem step_latchedFrom {s t : State} (h : step s = .next t) (hr : ∀ es, s.events ≠ .reset :: es) :
    LatchedFrom s.flags t.flags := by
  obtain ⟨-, ⟨-, rfl⟩ | ⟨b, es, -, -, rfl⟩ | ⟨es, _, -, -, rfl⟩ | ⟨es, i, -, -, rfl⟩ | ⟨a, es, -, rfl⟩ |
    ⟨es, -, rfl⟩ | ⟨es, he, -⟩⟩ := step_cases h
  · exact .inl rfl
  · exact accumulate_latchedFrom b (s.setEvents es)
  · exact pushLine_latchedFrom _ ((s.setEvents es).setRxQueue [])
  · simpa using pushLine_latchedFrom (replyLine (run i ((s.setEvents es).setRxQueue [])).2)
      (run i ((s.setEvents es).setRxQueue [])).1
  · exact canPoll_latchedFrom a (s.setEvents es)
  · exact .inl (flush_flags _)
  · exact absurd he (hr es)

/-- Settles O54: no step but reset writes a flag other than by a latch of one of the two queue flags. -/
theorem flagsLatchUntilReset : Obligations.FlagsLatchUntilReset := fun _ _ h hr =>
  have hl := step_latchedFrom h hr
  ⟨hl.flagsKept, hl.writerless_eq⟩

end Sys2Proof.Machine
end

