-- ==== Sys2Proof/Proofs/FrameCodec.lean ====
section
/-! The frame codec's round trip (R169): the checks of `decode` are sufficient as well as necessary, each field of an
encoded frame passes its check, then the obligation. -/

namespace Sys2Proof.Machine

/-- An argument that passes every check of R167 decodes, to the frame its fields give: the converse of
`decodeFrameOf_some`. -/
theorem decodeFrameOf_of_checks {lower : Bool} {k : FrameKind} {arg : List Byte} {f : Frame} {v : Nat} {n : Nibble}
    (hlen : idDigits k + 1 ≤ arg.length) (hv : unhex lower (arg.take (idDigits k)) = some v)
    (hn : hexVal lower (arg.getD (idDigits k) 0) = some n) (hn8 : n.toNat ≤ 8)
    (hrest : arg.length - (idDigits k + 1) = 2 * n.toNat) (hlim : v ≤ idLimit k)
    (hdata : unhexPairs lower (arg.drop (idDigits k + 1)) = some f.data) (hid : f.id = frameIdOf k v) :
    decodeFrameOf lower k arg = some f := by
  obtain ⟨id, data, hle⟩ := f
  have ha : ¬ arg.length < idDigits k := by omega
  simp only at hdata hid
  simp only [decodeFrameOf, if_neg ha, if_neg hlen.not_gt, hv, hn, if_neg hn8.not_gt, hrest, ne_eq, not_true,
    if_false, if_neg hlim.not_gt, hdata, dif_pos hle, hid]

/-- A number below `16 ^ n` written in `n` digits reads back (R15). -/
theorem unhex_hexN (lower : Bool) {v n : Nat} (h : v < 16 ^ n) : unhex lower (hexN v n) = some v := by
  simp [unhex, unhexFrom_hexN, Nat.mod_eq_of_lt h]

/-- The digits of a kind hold every identifier within its limit (R165). -/
theorem idLimit_lt_pow_idDigits (k : FrameKind) : idLimit k < 16 ^ idDigits k := by cases k <;> decide

/-- The type byte is the command byte of the variant that decodes the kind (R162). -/
theorem typeByte_eq_byte (k : FrameKind) : typeByte k = (kindVariant k).byte := by cases k <;> rfl

/-- With the type byte on, an encoding is that byte and then the encoding without it (R162). -/
theorem encodeFrame_true (f : Frame) : encodeFrame f true = typeByte (frameKind f) :: encodeFrame f false := rfl

/-- The fields of an encoded frame: identifier digits, one length digit, data pairs (R162). -/
theorem encodeFrame_false (f : Frame) : encodeFrame f false =
    hexN (frameIdNumber f) (idDigits (frameKind f)) ++ hexChar (BitVec.ofNat 4 f.data.length) :: hexData f.data := by
  simp [encodeFrame, lengthDigit_eq_hexChar _ f.data_le]

theorem encodeFrame_false_length (f : Frame) :
    (encodeFrame f false).length = idDigits (frameKind f) + 1 + 2 * f.data.length := by
  simp [encodeFrame_false]; omega

theorem encodeFrame_take_id (f : Frame) : (encodeFrame f false).take (idDigits (frameKind f)) =
    hexN (frameIdNumber f) (idDigits (frameKind f)) := by
  rw [encodeFrame_false, List.take_left' (hexN_length _ _)]

theorem encodeFrame_getD_length (f : Frame) :
    (encodeFrame f false).getD (idDigits (frameKind f)) 0 = hexChar (BitVec.ofNat 4 f.data.length) := by
  simp [encodeFrame_false]

theorem encodeFrame_drop_data (f : Frame) :
    (encodeFrame f false).drop (idDigits (frameKind f) + 1) = hexData f.data := by
  simp [encodeFrame_false, List.drop_append]

/-- An encoded frame decodes to itself under the variant of its kind, lowercase digits accepted or not (R169). -/
theorem decodeFrame_encodeFrame (lower : Bool) (f : Frame) :
    decodeFrame lower (kindVariant (frameKind f)) (encodeFrame f false) = some f := by
  have hlen := encodeFrame_false_length f
  have hdigit : (BitVec.ofNat 4 f.data.length).toNat = f.data.length :=
    Nat.mod_eq_of_lt (by have := f.data_le; omega)
  have hid : frameIdNumber f < 16 ^ idDigits (frameKind f) :=
    (frameIdNumber_le f).trans_lt (idLimit_lt_pow_idDigits _)
  simp only [decodeFrame, variantKind_kindVariant]
  exact decodeFrameOf_of_checks (by omega)
    (by rw [encodeFrame_take_id, unhex_hexN lower hid])
    (by rw [encodeFrame_getD_length, hexVal_hexChar])
    (by rw [hdigit]; exact f.data_le)
    (by omega)
    (frameIdNumber_le f)
    (by rw [encodeFrame_drop_data, unhexPairs_hexData])
    (frameIdOf_kind_number f).symm

/-- Settles O9: each field of an encoded frame passes its check of `decode`, and the type byte, cut off by `drop 1`, is
the command byte. -/
theorem frameCodecRoundTrip : Obligations.FrameCodecRoundTrip := fun lower f =>
  ⟨decodeFrame_encodeFrame lower f, by rw [encodeFrame_true, typeByte_eq_byte]; rfl,
    decodeFrame_encodeFrame lower f⟩

end Sys2Proof.Machine
end

