-- ==== Sys2Proof/Proofs/Replies.lean ====
section
/-! The response path of every command (R197 to R201): executing a command is pushing its reply line onto the state its
handler left, then the obligation. -/

namespace Sys2Proof.Machine

/-- R197: executing a command is running its handler and pushing its reply line. -/
theorem exec_eq_pushLine (i : Instr) (s : State) : exec i s = .next (pushLine (replyLine (run i s).2) (run i s).1) := by
  rw [exec_eq, finish_eq]

/-- Settles O32: a handler writes neither `tx_queue` nor the parameters, so a reply line with room in the state the
command started from has room when it is pushed, and it is appended to the queue as it was. -/
theorem everyCommandAnswersOneWholeReply : Obligations.EveryCommandAnswersOneWholeReply := by
  intro i s hroom
  have hfit : (run i s).1.txQueue.length + (replyLine (run i s).2).length ≤ (run i s).1.cfg.txCap := by
    simpa using hroom
  rw [exec_eq_pushLine, pushLine_room hfit, run_txQueue]
  rfl

end Sys2Proof.Machine
end

