-- ==== Sys2Proof/Proofs/FrameFields.lean ====
section
/-! The fields of a frame's argument bytes (R15, R162 to R170): which bytes are hex digits, what `decode` reads from each
field, and that it is written back in upper case. -/

namespace Sys2Proof.Machine

/-- Which bytes are hex digits, and their values (R15). -/
theorem hexVal_eq_some_iff {lower : Bool} {c : Byte} {v : Nibble} : hexVal lower c = some v ↔
    (c.toNat = 0x30 + v.toNat ∧ v.toNat ≤ 9) ∨ (c.toNat = 0x41 + v.toNat - 10 ∧ 10 ≤ v.toNat) ∨
      (lower = true ∧ c.toNat = 0x61 + v.toNat - 10 ∧ 10 ≤ v.toNat) := by
  have hv := v.isLt
  unfold hexVal
  split_ifs with hdigit hupper hlower
  · rw [Option.some.injEq, ← BitVec.toNat_inj, BitVec.toNat_ofNat]; omega
  · rw [Option.some.injEq, ← BitVec.toNat_inj, BitVec.toNat_ofNat]; omega
  · obtain ⟨rfl, hc⟩ := hlower
    rw [Option.some.injEq, ← BitVec.toNat_inj, BitVec.toNat_ofNat]
    simp only [true_and]
    omega
  · cases lower <;> simp only [Bool.false_eq_true, false_and, true_and, or_false, false_iff] at hlower ⊢ <;> omega

/-- Settles O7: the digit table is `hexVal_eq_some_iff`, and a number that `n` digits hold reads back. -/
theorem hexFieldsReadBack : Obligations.HexFieldsReadBack :=
  ⟨fun _ _ _ => hexVal_eq_some_iff, fun lower n v h => ⟨hexN_length v n, unhex_hexN lower h⟩⟩

theorem idDigits_le (k : FrameKind) : idDigits k ≤ 8 := by cases k <;> decide

theorem encodeFrame_true_length_le (f : Frame) : (encodeFrame f true).length ≤ 26 := by
  have hid := idDigits_le (frameKind f)
  have hdata := f.data_le
  simp only [encodeFrame_true, List.length_cons, encodeFrame_false_length]
  omega

/-- Without the type byte an encoded frame is hex digits only (R163). -/
theorem encodeFrame_false_mem (f : Frame) : ∀ b ∈ encodeFrame f false, b ∈ hexDigits := by
  intro b hb
  rw [encodeFrame_false, List.mem_append, List.mem_cons] at hb
  rcases hb with hid | rfl | hdata
  · exact hexN_mem _ _ b hid
  · exact hexChar_mem _
  · exact hexData_mem _ b hdata

/-- Settles O8, field by field. -/
theorem encodedFrameIsUppercaseHex : Obligations.EncodedFrameIsUppercaseHex := fun f =>
  ⟨encodeFrame_true f, encodeFrame_false_length f, encodeFrame_true_length_le f, encodeFrame_false_mem f⟩

/-- `decode` answers `f` exactly when every field of the argument reads as that field of `f` (R165 to R167). -/
theorem decodeFrame_eq_some_iff {lower : Bool} {v : Variant} {arg : List Byte} {f : Frame} :
    decodeFrame lower v arg = some f ↔
      v = kindVariant (frameKind f) ∧ arg.length = idDigits (frameKind f) + 1 + 2 * f.data.length ∧
      unhex lower (arg.take (idDigits (frameKind f))) = some (frameIdNumber f) ∧
      hexVal lower (arg.getD (idDigits (frameKind f)) 0) = some (BitVec.ofNat 4 f.data.length) ∧
      unhexPairs lower (arg.drop (idDigits (frameKind f) + 1)) = some f.data := by
  have hle := f.data_le
  have hdigit : (BitVec.ofNat 4 f.data.length).toNat = f.data.length := Nat.mod_eq_of_lt (by omega)
  constructor
  · intro h
    obtain ⟨hv, hof⟩ := decodeFrame_kind h
    obtain ⟨w, n, hlen, hw, hn, -, hrest, hlim, hdata, hid⟩ := decodeFrameOf_some hof
    have hpairs := (hexData_of_unhexPairs lower _ _ hdata).2
    rw [List.length_drop] at hpairs
    have hnlen : n = BitVec.ofNat 4 f.data.length := BitVec.eq_of_toNat_eq (by omega)
    exact ⟨hv, by omega, by rw [hw, frameIdNumber_of_frameIdOf hid hlim], hnlen ▸ hn, hdata⟩
  · rintro ⟨rfl, hlen, hid, hn, hdata⟩
    simp only [decodeFrame, variantKind_kindVariant]
    exact decodeFrameOf_of_checks (by omega) hid hn (by omega) (by omega) (frameIdNumber_le f) hdata
      (frameIdOf_kind_number f).symm

/-- Re-encoding a decoded frame gives the argument in upper case (R170). -/
theorem encodeFrame_of_decodeFrame {lower : Bool} {v : Variant} {arg : List Byte} {f : Frame}
    (h : decodeFrame lower v arg = some f) : encodeFrame f false = arg.map upperHex := by
  obtain ⟨-, hlen, hid, hn, hdata⟩ := decodeFrame_eq_some_iff.mp h
  have htake : (arg.take (idDigits (frameKind f))).length = idDigits (frameKind f) := by simp; omega
  have hdigits := (hexN_of_unhexFrom lower _ 0 _ hid).2
  rw [htake] at hdigits
  rw [encodeFrame_false, hdigits, ← upperHex_of_hexVal lower _ _ hn, (hexData_of_unhexPairs lower _ _ hdata).1,
    ← List.map_cons, ← List.map_append, ← take_getD_drop _ arg (by omega)]

/-- A sequence with none of `'a'`..`'f'` is in upper case already (R170). -/
theorem map_upperHex_of_no_lower {arg : List Byte} (h : ∀ b ∈ arg, ¬ (0x61 ≤ b.toNat ∧ b.toNat ≤ 0x66)) :
    arg.map upperHex = arg :=
  (List.map_congr_left fun b hb => if_neg (h b hb)).trans (List.map_id' arg)

/-- Settles O10: two arguments of one frame are both, in upper case, its encoding. -/
theorem decodeThenEncodeUppercases : Obligations.DecodeThenEncodeUppercases := fun _ _ _ _ h =>
  have hup := encodeFrame_of_decodeFrame h
  ⟨hup, fun hno => hup.trans (map_upperHex_of_no_lower hno), fun _ h' => (encodeFrame_of_decodeFrame h').symm.trans hup⟩

/-- A data byte holds the number of its two digits whole (R90). -/
theorem toNat_ofNat_digits (h l : Nibble) :
    (BitVec.ofNat 8 (16 * h.toNat + l.toNat)).toNat = 16 * h.toNat + l.toNat :=
  Nat.mod_eq_of_lt (by have := h.isLt; have := l.isLt; omega)

/-- One pair of digits in front is one data byte in front (R90). -/
theorem unhexPairs_pair_eq_some {lower : Bool} {a b : Byte} {cs : List Byte} {d : Byte} {ds : List Byte} :
    unhexPairs lower (a :: b :: cs) = some (d :: ds) ↔
      (∃ h l : Nibble, hexVal lower a = some h ∧ hexVal lower b = some l ∧ d.toNat = 16 * h.toNat + l.toNat) ∧
        unhexPairs lower cs = some ds := by
  constructor
  · intro hsome
    unfold unhexPairs at hsome
    split at hsome
    · rename_i h l ds' ha hb hc
      cases hsome
      exact ⟨⟨h, l, ha, hb, toNat_ofNat_digits h l⟩, hc⟩
    · cases hsome
  · rintro ⟨⟨h, l, ha, hb, hd⟩, hc⟩
    have hbyte : BitVec.ofNat 8 (16 * h.toNat + l.toNat) = d :=
      BitVec.eq_of_toNat_eq ((toNat_ofNat_digits h l).trans hd.symm)
    simp only [unhexPairs, ha, hb, hc, hbyte]

/-- Data is read from pairs exactly when each pair of digits reads as its byte (R90). -/
theorem unhexPairs_eq_some_iff {lower : Bool} {s ds : List Byte} : unhexPairs lower s = some ds ↔
    s.length = 2 * ds.length ∧ ∀ j, j < ds.length → ∃ h l : Nibble, hexVal lower (s.getD (2 * j) 0) = some h ∧
      hexVal lower (s.getD (2 * j + 1) 0) = some l ∧ (ds.getD j 0).toNat = 16 * h.toNat + l.toNat := by
  induction s using pairs_induction generalizing ds with
  | nil => cases ds <;> simp [unhexPairs]
  | single a => simp [unhexPairs]; omega
  | pair a b cs ih =>
    cases ds with
    | nil => unfold unhexPairs; split <;> simp
    | cons d ds =>
      rw [unhexPairs_pair_eq_some, ih]
      simp only [List.length_cons, Nat.forall_lt_succ_left]
      simp [Nat.mul_add]
      tauto

/-- Settles O11: `decodeFrame_eq_some_iff`, with the data field read pair by pair. -/
theorem decodeAcceptsExactlyWellFormedArguments : Obligations.DecodeAcceptsExactlyWellFormedArguments := by
  intro lower v arg f
  rw [decodeFrame_eq_some_iff, unhexPairs_eq_some_iff]
  refine and_congr_right fun _ => and_congr_right fun hlen => and_congr_right fun _ => and_congr_right fun _ => ?_
  have hdrop : (arg.drop (idDigits (frameKind f) + 1)).length = 2 * f.data.length := by simp; omega
  have hat (j : Nat) : (arg.drop (idDigits (frameKind f) + 1)).getD j 0 = arg.getD (idDigits (frameKind f) + 1 + j) 0 := by
    simp [List.getD]
  have hlow (j : Nat) : idDigits (frameKind f) + 1 + (2 * j + 1) = idDigits (frameKind f) + 2 + 2 * j := by omega
  simp only [hdrop, hat, hlow, true_and]

end Sys2Proof.Machine
end

