-- ==== Sys2Proof/Proofs/Lines.lean ====
section
/-! Lines and commands (R81, R82, R84, R94, R191): the alphabet read both ways, which lines decode and to what, and which
are rejected. -/

namespace Sys2Proof

theorem mem_of_lookupVariant {b : Byte} {v : Variant} {rows : List (Byte × Variant)}
    (h : lookupVariant b rows = some v) : (b, v) ∈ rows := by
  induction rows with
  | nil => cases h
  | cons row rows ih =>
    unfold lookupVariant at h
    split at h
    · rename_i hb
      cases h
      exact hb ▸ List.mem_cons_self
    · exact List.mem_cons_of_mem _ (ih h)

theorem lookupVariant_eq_none_iff {b : Byte} {rows : List (Byte × Variant)} :
    lookupVariant b rows = none ↔ b ∉ rows.map Prod.fst := by
  induction rows with
  | nil => simp [lookupVariant]
  | cons row rows ih =>
    unfold lookupVariant
    split
    · rename_i hb
      simp [hb]
    · rename_i hb
      simp [ih, Ne.symm hb]

/-- Each row of the alphabet pairs a variant with its own command byte (R84). -/
theorem byte_of_mem_alphabet : ∀ row ∈ alphabet, row.2.byte = row.1 := by decide

/-- A byte selects a variant exactly when it is that variant's command byte (R84). -/
theorem variantOf_eq_some_iff {b : Byte} {v : Variant} : variantOf b = some v ↔ v.byte = b := by
  constructor
  · intro h
    exact byte_of_mem_alphabet (b, v) (mem_of_lookupVariant h)
  · rintro rfl
    exact Laws.variantOf_byte v

@[simp] theorem Variant.command_variant_arg (i : Instr) : i.variant.command i.arg = i := by cases i <;> rfl

@[simp] theorem encode_command (v : Variant) (arg : List Byte) : encode (v.command arg) = v.byte :: arg := by
  cases v <;> rfl

@[simp] theorem command_arg (v : Variant) (arg : List Byte) : (v.command arg).arg = arg := by cases v <;> rfl

/-- A line decodes to a command exactly when it is that command's line and its arguments fit (R81, R82, R191). -/
theorem parse_eq_ok_iff {c : Config} {line : List Byte} {i : Instr} :
    parse c line = .ok i ↔ encode i = line ∧ i.ArgFits c := by
  constructor
  · intro h
    unfold parse at h
    split at h
    · cases h
    · rename_i b arg
      split at h
      · cases h
      · rename_i v hv
        split at h
        · cases h
        · rename_i hfits
          cases h
          rw [encode_command, variantOf_eq_some_iff.mp hv]
          exact ⟨rfl, by simpa [Instr.ArgFits] using hfits⟩
  · rintro ⟨rfl, hfits⟩
    exact (Machine.parse_cons_some (Laws.variantOf_byte _) hfits).trans
      (congrArg _ (Variant.command_variant_arg i))

/-- The line of a well-formed command holds no terminator (R80). -/
theorem CR_notMem_encode {c : Config} {i : Instr} (h : i.WellFormed c) : CR ∉ encode i := by
  obtain ⟨-, hno⟩ := h
  exact List.not_mem_cons_of_ne_of_not_mem (Laws.byte_ne_CR _).symm hno

/-- Settles O13, both parts from `parse_eq_ok_iff`. -/
theorem parseAndEncodeAgree : Obligations.ParseAndEncodeAgree :=
  ⟨fun _ _ hwf => ⟨parse_eq_ok_iff.mpr ⟨rfl, hwf.1⟩, CR_notMem_encode hwf⟩, fun _ _ _ => parse_eq_ok_iff.mp⟩

/-- The three ways for a line to be illegal (R94). -/
theorem exists_parse_error_iff {c : Config} {line : List Byte} : (∃ e, parse c line = .error e) ↔
    line = [] ∨ (∃ b arg, line = b :: arg ∧ variantOf b = none) ∨
      (∃ b arg, line = b :: arg ∧ c.cmdArgCap < arg.length) := by
  cases line with
  | nil => simp [parse]
  | cons b arg =>
    cases hv : variantOf b with
    | none => simp [parse, hv]
    | some v =>
      by_cases hlong : c.cmdArgCap < arg.length
      · simp [parse, hv, hlong]
      · simp [parse, hv, hlong]

/-- Settles O14: the first bytes that select nothing are those outside the alphabet's column of bytes. -/
theorem parseRejectsExactlyIllegalLines : Obligations.ParseRejectsExactlyIllegalLines := by
  refine ⟨fun c line => ?_, fun e => by cases e <;> rfl⟩
  rw [exists_parse_error_iff]
  simp only [variantOf, lookupVariant_eq_none_iff]
  rfl

/-- Settles O12, line by line. -/
theorem writtenOutLinesDecode : Obligations.WrittenOutLinesDecode :=
  ⟨rfl, rfl, rfl, rfl, rfl, rfl, rfl, rfl, rfl, rfl, rfl, rfl, rfl, rfl, rfl, rfl⟩

end Sys2Proof
end

