-- ==== Sys2Proof/Proofs/Queue.lean ====
section
/-! The queue block (R51 to R58): its operations one by one, and the order law along every sequence of them. -/

namespace Sys2Proof.Machine

/-- A byte that finds the line in progress full is dropped and flagged (R293). -/
theorem accumulate_full {b : Byte} {s : State} (h : s.rxQueue.length = s.cfg.rxCap) :
    accumulate b s = s.setFlags (latchRxQueueFull s.flags) := by
  rcases accumulate_cases b s with ⟨hne, _⟩ | ⟨_, hacc⟩
  · exact absurd h hne
  · exact hacc

/-- A byte that finds room is appended to the line in progress (R293). -/
theorem accumulate_room {b : Byte} {s : State} (h : s.rxQueue.length ≠ s.cfg.rxCap) :
    accumulate b s = s.setRxQueue (s.rxQueue ++ [b]) := by
  rcases accumulate_cases b s with ⟨_, hacc⟩ | ⟨heq, _⟩
  · exact hacc
  · exact absurd heq h

/-- Settles O1: the push itself, and the `RxByte` step whose push is refused. -/
theorem pushAppendsOneByteOrIsRefused : Obligations.PushAppendsOneByteOrIsRefused := by
  refine ⟨fun cap q b => ⟨push_full b, push_room b⟩, fun s b hb hfull => ?_⟩
  rw [rxByte_of_ne hb, accumulate_full hfull]
  rfl

/-- Settles O2. -/
theorem pushAllStoresAllOrNothing : Obligations.PushAllStoresAllOrNothing := fun cap q bs =>
  ⟨pushAll_full, pushAll_room, by simpa using pushAll_room (bs := []) (Nat.zero_le (cap - q.length))⟩

/-- As many pops as there are bytes return them all in order (R56). -/
theorem popMany_length (q : List Byte) : popMany q.length q = (q, []) := by
  induction q with
  | nil => rfl
  | cons b q ih => simp [ih]

/-- Settles O3. -/
theorem drainingEqualsPoppingUntilEmpty : Obligations.DrainingEqualsPoppingUntilEmpty :=
  ⟨fun _ _ => rfl, rfl, fun q => ⟨rfl, popMany_length q⟩⟩

/-- The order law and the capacity: what was returned and then what is stored is what was accepted (R58, R51). -/
def QueueHistory.Fifo (cap : Nat) (h : QueueHistory) : Prop :=
  h.returned ++ h.data = h.accepted ∧ h.data.length ≤ cap

theorem QueueHistory.apply_fifo {cap : Nat} {h : QueueHistory} (op : QueueOp) (hf : h.Fifo cap) :
    (h.apply cap op).Fifo cap := by
  obtain ⟨horder, hcap⟩ := hf
  cases op with
  | push b =>
    simp only [QueueHistory.apply]
    cases hp : Machine.push cap h.data b with
    | none => exact ⟨horder, hcap⟩
    | some d =>
      refine ⟨?_, push_length_le hp hcap⟩
      rw [(push_some hp).2, ← List.append_assoc, horder]
  | pushAll bs =>
    simp only [QueueHistory.apply]
    cases hp : Machine.pushAll cap h.data bs with
    | none => exact ⟨horder, hcap⟩
    | some d =>
      refine ⟨?_, pushAll_length_le hp hcap⟩
      rw [(pushAll_some hp).2, ← List.append_assoc, horder]
  | pop =>
    simp only [QueueHistory.apply]
    cases hd : h.data with
    | nil => exact ⟨horder, hcap⟩
    | cons b d =>
      rw [hd] at horder hcap
      exact ⟨by simpa using horder, by simp at hcap ⊢; omega⟩
  | drainAll => exact ⟨by simpa [QueueHistory.apply] using horder, by simp [QueueHistory.apply]⟩

theorem QueueHistory.applyAll_fifo {cap : Nat} {h : QueueHistory} (ops : List QueueOp) (hf : h.Fifo cap) :
    (h.applyAll cap ops).Fifo cap := by
  induction ops generalizing h with
  | nil => exact hf
  | cons op ops ih => exact ih (apply_fifo op hf)

/-- Settles O4: a fresh queue meets `Fifo` and every operation keeps it. -/
theorem queueIsStrictFifo : Obligations.QueueIsStrictFifo := fun cap ops =>
  QueueHistory.applyAll_fifo (h := .fresh) ops ⟨rfl, Nat.zero_le cap⟩

end Sys2Proof.Machine
end

