-- ==== Sys2Proof/Proofs/Ring.lean ====
section
/-! The ring buffer implements the queue (R59): the two ways its indices move, appending bytes at `tail` and advancing
`head`, and what each does to the sequence the ring buffer stands for. -/

namespace Sys2Proof.Machine

/-- The ring buffer with the bytes written from `tail` on and `tail` moved behind them: what a `Push` and a `PushAll`
that are not refused both do. -/
def ringAppend (r : Ring) (bs : List Byte) : Ring :=
  { r with mem := ringStore r r.tail bs, tail := (r.tail + bs.length) % (2 * r.cap) }

/-- The ring buffer with `head` moved past the oldest byte: what a `Pop` that finds a byte does. -/
def ringAdvance (r : Ring) : Ring := { r with head := (r.head + 1) % (2 * r.cap) }

theorem ringPush_full {r : Ring} (b : Byte) (h : ringLen r = r.cap) : ringPush r b = none := if_pos h

theorem ringPush_room {r : Ring} (b : Byte) (h : ringLen r ≠ r.cap) : ringPush r b = some (ringAppend r [b]) :=
  if_neg h

theorem ringPushAll_full {r : Ring} {bs : List Byte} (h : r.cap - ringLen r < bs.length) : ringPushAll r bs = none :=
  if_pos h

theorem ringPushAll_room {r : Ring} {bs : List Byte} (h : bs.length ≤ r.cap - ringLen r) :
    ringPushAll r bs = some (ringAppend r bs) := if_neg h.not_gt

theorem ringPop_empty {r : Ring} (h : ringLen r = 0) : ringPop r = none := if_pos h

theorem ringPop_nonempty {r : Ring} (h : ringLen r ≠ 0) : ringPop r = some (ringSlot r r.head, ringAdvance r) :=
  if_neg h

section
variable {r : Ring} (hwf : RingWf r)
include hwf

/-- The slot `j` places from `tail` on is the slot `Len + j` places from `head` on. -/
theorem ring_tail_slot (j : Nat) : (r.tail + j) % r.cap = (r.head + (ringLen r + j)) % r.cap := by
  rw [ring_tail_eq r hwf, Nat.add_mod, mod_twice_cap, ← Nat.add_mod, Nat.add_assoc]

theorem ringAppend_len {bs : List Byte} (hfit : bs.length ≤ r.cap - ringLen r) :
    ringLen (ringAppend r bs) = ringLen r + bs.length := by
  have htail : (ringAppend r bs).tail = (r.head + (ringLen r + bs.length)) % (2 * r.cap) := by
    simp only [ringAppend]
    rw [ring_tail_eq r hwf, Nat.mod_add_mod, Nat.add_assoc]
  obtain ⟨hcap, -, hhead, -, hlen⟩ := hwf
  rw [ringLen, htail]
  exact ring_len_of r.cap r.head _ hhead (by omega)

theorem ringAppend_wf {bs : List Byte} (hfit : bs.length ≤ r.cap - ringLen r) : RingWf (ringAppend r bs) := by
  have hnew := ringAppend_len hwf hfit
  obtain ⟨hcap, hmem, hhead, -, hlen⟩ := hwf
  exact ⟨hcap, (ringStore_length r _ bs).trans hmem, hhead, Nat.mod_lt _ (by omega),
    by rw [hnew]; change _ ≤ r.cap; omega⟩

/-- Appending keeps the bytes already stored and adds the new ones behind them. -/
theorem ringData_append {bs : List Byte} (hfit : bs.length ≤ r.cap - ringLen r) :
    ringData (ringAppend r bs) = ringData r ++ bs := by
  have hnew := ringAppend_len hwf hfit
  have hslot := ring_tail_slot hwf
  obtain ⟨hcap, hmem, -, -, hlen⟩ := hwf
  apply list_ext_getD
  · simp [ringData_length, hnew]
  intro k hk
  rw [ringData_length] at hk
  rw [ringData_getD _ k hk]
  change (ringStore r r.tail bs).getD ((r.head + k) % r.cap) 0 = _
  by_cases hold : k < ringLen r
  · rw [List.getD_append _ _ _ _ (by rwa [ringData_length]), ringData_getD r k hold]
    refine ringStore_other r r.tail bs _ fun j hj => ?_
    rw [hslot j]
    exact (ring_slots_ne r.cap r.head k (ringLen r + j) (by omega) (by omega)).symm
  · rw [List.getD_append_right _ _ _ _ (by rw [ringData_length]; omega), ringData_length,
      show k = ringLen r + (k - ringLen r) by omega, ← hslot, Nat.add_sub_cancel_left]
    exact ringStore_at r hmem hcap r.tail bs (by omega) _ (by omega)

theorem ringAdvance_len (hne : ringLen r ≠ 0) : ringLen (ringAdvance r) = ringLen r - 1 := by
  have htail : r.tail = ((r.head + 1) % (2 * r.cap) + (ringLen r - 1)) % (2 * r.cap) := by
    rw [Nat.mod_add_mod, show r.head + 1 + (ringLen r - 1) = r.head + ringLen r by omega]
    exact ring_tail_eq r hwf
  obtain ⟨hcap, -, -, -, hlen⟩ := hwf
  have := ring_len_of r.cap ((r.head + 1) % (2 * r.cap)) (ringLen r - 1) (Nat.mod_lt _ (by omega)) (by omega)
  rwa [← htail] at this

theorem ringAdvance_wf (hne : ringLen r ≠ 0) : RingWf (ringAdvance r) := by
  have hnew := ringAdvance_len hwf hne
  obtain ⟨hcap, hmem, -, htail, hlen⟩ := hwf
  exact ⟨hcap, hmem, Nat.mod_lt _ (by omega), htail, by rw [hnew]; change _ ≤ r.cap; omega⟩

/-- Advancing `head` takes the oldest byte off. -/
theorem ringData_advance (hne : ringLen r ≠ 0) : ringData r = ringSlot r r.head :: ringData (ringAdvance r) := by
  have hslot (k : Nat) : ringSlot (ringAdvance r) ((ringAdvance r).head + k) = ringSlot r (r.head + (k + 1)) := by
    change r.mem.getD (((r.head + 1) % (2 * r.cap) + k) % r.cap) 0 = r.mem.getD ((r.head + (k + 1)) % r.cap) 0
    rw [Nat.add_mod, mod_twice_cap, ← Nat.add_mod, Nat.add_assoc, Nat.add_comm 1 k]
  simp only [ringData, hslot, ringAdvance_len hwf hne]
  obtain ⟨n, hn⟩ := Nat.exists_eq_succ_of_ne_zero hne
  simp [hn, List.range_succ_eq_map, Function.comp_def]

theorem ringDrainAll_len : ringLen (ringDrainAll r).2 = 0 := by
  obtain ⟨-, -, -, htail, -⟩ := hwf
  change (r.tail + 2 * r.cap - r.tail) % (2 * r.cap) = 0
  simp

theorem ringDrainAll_wf : RingWf (ringDrainAll r).2 := by
  have hlen := ringDrainAll_len hwf
  obtain ⟨hcap, hmem, -, htail, -⟩ := hwf
  exact ⟨hcap, hmem, htail, htail, hlen ▸ Nat.zero_le _⟩

/-- A push of a sequence on the ring buffer is the abstract one on what it stands for. -/
theorem ringPushAll_refines (bs : List Byte) :
    (ringPushAll r bs).map ringData = pushAll r.cap (ringData r) bs ∧
      ∀ r', ringPushAll r bs = some r' → RingWf r' ∧ r'.cap = r.cap := by
  by_cases hfit : bs.length ≤ r.cap - ringLen r
  · rw [ringPushAll_room hfit, pushAll_room (by rwa [ringData_length])]
    refine ⟨congrArg some (ringData_append hwf hfit), ?_⟩
    rintro r' ⟨⟩
    exact ⟨ringAppend_wf hwf hfit, rfl⟩
  · rw [ringPushAll_full (by omega), pushAll_full (by rw [ringData_length]; omega)]
    exact ⟨rfl, nofun⟩

/-- A push of one byte on the ring buffer is the abstract one on what it stands for. -/
theorem ringPush_refines (b : Byte) :
    (ringPush r b).map ringData = push r.cap (ringData r) b ∧
      ∀ r', ringPush r b = some r' → RingWf r' ∧ r'.cap = r.cap := by
  by_cases hfull : ringLen r = r.cap
  · rw [ringPush_full b hfull, push_full b (by rw [ringData_length, hfull])]
    exact ⟨rfl, nofun⟩
  · have hfit : [b].length ≤ r.cap - ringLen r := by
      obtain ⟨-, -, -, -, hlen⟩ := hwf
      simp only [List.length_singleton]
      omega
    rw [ringPush_room b hfull, push_room b (by rwa [ringData_length])]
    refine ⟨congrArg some (ringData_append hwf hfit), ?_⟩
    rintro r' ⟨⟩
    exact ⟨ringAppend_wf hwf hfit, rfl⟩

/-- A pop of the ring buffer is the abstract one of what it stands for. -/
theorem ringPop_refines :
    (ringPop r).map (fun x => (x.1, ringData x.2)) = pop (ringData r) ∧
      ∀ b r', ringPop r = some (b, r') → RingWf r' ∧ r'.cap = r.cap := by
  by_cases hempty : ringLen r = 0
  · rw [ringPop_empty hempty, List.eq_nil_of_length_eq_zero ((ringData_length r).trans hempty)]
    exact ⟨rfl, nofun⟩
  · rw [ringPop_nonempty hempty, ringData_advance hwf hempty]
    refine ⟨rfl, ?_⟩
    rintro b r' ⟨⟩
    exact ⟨ringAdvance_wf hwf hempty, rfl⟩

end

/-- Settles O5, operation by operation. -/
theorem ringBufferImplementsQueue : Obligations.RingBufferImplementsQueue := fun r hwf =>
  ⟨ringData_length r, ringPush_refines hwf, ringPushAll_refines hwf, ringPop_refines hwf,
    congrArg (ringData r, ·) (List.eq_nil_of_length_eq_zero ((ringData_length _).trans (ringDrainAll_len hwf))),
    ringDrainAll_wf hwf⟩

end Sys2Proof.Machine
end

