-- ==== Sys2Proof/Proofs/Timing.lean ====
section
/-! The bit-timing resolver (R120 to R131): exactness both ways, what three bitrates of one clock force, and the reference
configurations; and the bits of the status byte (R25). -/

namespace Sys2Proof.Machine

/-- Settles O6: the weights of R25 are the first seven powers of two, so the seven flags are read off one by one. -/
theorem statusByteBitPositions : Obligations.StatusByteBitPositions := by
  rintro ⟨b0, b1, b2, b3, b4, b5, b6⟩
  revert b0 b1 b2 b3 b4 b5 b6
  decide

/-- A quotient times the divisor is the clock, where the division is exact (R123). -/
theorem resolve_prescaler_mul {c : Config} {clockHz bitrate : Nat} {t : TimingConfig}
    (h : resolve c clockHz bitrate = some t) : t.prescaler.toNat * c.q * bitrate = clockHz := by
  obtain ⟨_, hexact, _⟩ := resolve_eq_some.mp h
  rw [resolve_prescaler_toNat h, Nat.mul_assoc]
  exact Nat.div_mul_cancel (Nat.dvd_of_mod_eq_zero hexact)

/-- An exact prescaler in range is the one returned (R130). -/
theorem resolve_of_exact {c : Config} {clockHz bitrate p : Nat} (hp : 1 ≤ p) (hmax : p ≤ c.prescalerMax.toNat)
    (hclock : 0 < clockHz) (hexact : p * c.q * bitrate = clockHz) (hsp : SamplePointOk c) :
    resolve c clockHz bitrate =
      some { prescaler := BitVec.ofNat 16 p, seg1 := c.seg1, seg2 := c.seg2, sjw := c.sjw } := by
  rw [Nat.mul_assoc] at hexact
  have hdivisor : 0 < c.q * bitrate := Nat.pos_of_ne_zero fun h0 => by rw [h0] at hexact; omega
  have hquotient : clockHz / (c.q * bitrate) = p := hexact ▸ Nat.mul_div_cancel p hdivisor
  refine resolve_eq_some.mpr ⟨⟨(Nat.pos_of_mul_pos_left hdivisor).ne', hclock.ne'⟩, ?_, ?_, hsp, ?_⟩
  · rw [← hexact]; exact Nat.mul_mod_left p _
  · rw [hquotient]; exact ⟨hp, hmax⟩
  · rw [hquotient]

/-- Settles O15. -/
theorem resolveIsExactDivision : Obligations.ResolveIsExactDivision := by
  refine fun c clockHz bitrate hq => ⟨fun t h => ?_, fun p hp hmax hclock hexact hsp =>
    resolve_of_exact hp hmax hclock hexact hsp⟩
  have hprescaler := resolve_prescaler_toNat h
  have hmul := resolve_prescaler_mul h
  obtain ⟨-, -, ⟨hmin, hmax⟩, ⟨hlow, hhigh⟩, ht⟩ := resolve_eq_some.mp h
  have hseg1 : t.seg1 = c.seg1 := by rw [ht]
  have hseg2 : t.seg2 = c.seg2 := by rw [ht]
  rw [hseg1, hseg2, ← hq]
  exact ⟨hmul, hprescaler ▸ hmin, hprescaler ▸ hmax, hlow, hhigh⟩

/-- A bitrate resolves exactly when it divides the clock with a quotient in range, under `SamplePointOk` (R123). -/
theorem resolve_isSome_iff {c : Config} {clockHz bitrate : Nat} : (resolve c clockHz bitrate).isSome = true ↔
    (bitrate ≠ 0 ∧ clockHz ≠ 0) ∧ c.q * bitrate ∣ clockHz ∧
      (1 ≤ clockHz / (c.q * bitrate) ∧ clockHz / (c.q * bitrate) ≤ c.prescalerMax.toNat) ∧ SamplePointOk c := by
  simp only [Option.isSome_iff_exists, resolve_eq_some, Nat.dvd_iff_mod_eq_zero]
  exact ⟨fun ⟨_, h0, hm, hr, hs, _⟩ => ⟨h0, hm, hr, hs⟩, fun ⟨h0, hm, hr, hs⟩ => ⟨_, h0, hm, hr, hs, rfl⟩⟩

/-- R128: `500 000` and `800 000` have the least common multiple `4 000 000`, of which `1 000 000` is a divisor; and its
quotient is no larger than that of `500 000`. -/
theorem resolve_top_of_500k_800k {c : Config} {clockHz : Nat} (h500 : (resolve c clockHz 500000).isSome = true)
    (h800 : (resolve c clockHz 800000).isSome = true) : (resolve c clockHz 1000000).isSome = true := by
  obtain ⟨⟨-, hclock⟩, hdvd500, ⟨hmin, hmax⟩, hsp⟩ := resolve_isSome_iff.mp h500
  obtain ⟨-, hdvd800, -, -⟩ := resolve_isSome_iff.mp h800
  have hq : 0 < c.q := Nat.pos_of_ne_zero fun h0 => by simp [h0] at hmin
  have hlcm : c.q * Nat.lcm 500000 800000 ∣ clockHz := Nat.lcm_mul_left c.q 500000 800000 ▸ Nat.lcm_dvd hdvd500 hdvd800
  have hdvd : c.q * 1000000 ∣ clockHz := (Nat.mul_dvd_mul_left c.q (by decide)).trans hlcm
  refine resolve_isSome_iff.mpr ⟨⟨by decide, hclock⟩, hdvd, ⟨?_, ?_⟩, hsp⟩
  · exact Nat.div_pos (Nat.le_of_dvd (Nat.pos_of_ne_zero hclock) hdvd) (by omega)
  · exact (Nat.div_le_div_left (Nat.mul_le_mul_left c.q (by decide)) (by omega)).trans hmax

/-- Settles O16: in a documented configuration every index below 8 resolves and 8 does not. -/
theorem eightHundredKilobitForcesOneMegabit : Obligations.EightHundredKilobitForcesOneMegabit := by
  refine ⟨fun _ _ => resolve_top_of_500k_800k, ?_, rfl, by decide⟩
  rintro c i j hi hj h500 h800 ⟨htop, hothers⟩
  have hres500 := hothers i hi
  have hres800 := hothers j hj
  rw [resolveIndex, h500] at hres500
  rw [resolveIndex, h800] at hres800
  have hres : (resolveIndex c 8).isSome = true := resolve_top_of_500k_800k hres500 hres800
  rw [htop] at hres
  cases hres

/-- Settles O17, the two tables entry by entry. -/
theorem referenceTimings : Obligations.ReferenceTimings :=
  ⟨by decide, by decide, by decide, by decide, by decide, by decide⟩

end Sys2Proof.Machine
end

