-- ==== Sys2Proof/Proofs/Commands.lean ====
section
/-! The commands one by one (spec/44_cmd_channel.md to spec/46_cmd_info.md): what a handler answers gives what `exec`
answers, where the reply line fits and where it does not; then each command's handler. -/

namespace Sys2Proof.Machine

/-! ### From a handler's result to the command -/

/-- A command whose reply line fits: its handler's state with the line queued (R199). -/
theorem exec_of_run_room {i : Instr} {s t : State} {r : Reply} (h : run i s = (t, r))
    (hroom : t.Room (replyLine r).length) : exec i s = .next (t.setTxQueue (t.txQueue ++ replyLine r)) := by
  rw [exec_eq_pushLine, h, pushLine_room hroom]

/-- A command whose reply line does not fit: its handler's state with the flag set (R201). -/
theorem exec_of_run_full {i : Instr} {s t : State} {r : Reply} (h : run i s = (t, r))
    (hfull : ¬ t.Room (replyLine r).length) (hcap : t.txQueue.length ≤ t.cfg.txCap) :
    exec i s = .next (t.setFlags (latchTxQueueFull t.flags)) := by
  have hover : t.cfg.txCap - t.txQueue.length < (replyLine r).length := by omega
  rw [exec_eq_pushLine, h, pushLine_full hover]

/-- A command whose handler fails with nothing changed rings the bell (R200). -/
theorem exec_of_run_error {i : Instr} {s : State} {k : ErrorKind} (h : run i s = (s, .error k)) (hroom : s.Room 1) :
    exec i s = .next { s with txQueue := s.txQueue ++ [BELL] } := exec_of_run_room h hroom

/-- A command's letter and any argument within the bound spell that command (R81, R82). -/
theorem spells_command (v : Variant) (c : Config) : Spells c v.byte v.command :=
  fun _ h => parse_cons_some (Laws.variantOf_byte v) h

/-- A command's letter with more argument bytes than the bound spells nothing (R82). -/
theorem parse_command_long {v : Variant} {c : Config} {arg : List Byte} (h : c.cmdArgCap < arg.length) :
    parse c (v.byte :: arg) = .error .argumentTooLong := by simp [parse, Laws.variantOf_byte, h]

/-- Settles O33: the handler has written neither the queue, the flags nor the parameters. -/
theorem unfittingReplyIsDroppedAndFlagged : Obligations.UnfittingReplyIsDroppedAndFlagged := by
  intro i s hfull hcap
  have hover : (run i s).1.cfg.txCap - (run i s).1.txQueue.length < (replyLine (run i s).2).length := by
    rw [run_cfg, run_txQueue]
    omega
  rw [exec_eq_pushLine, pushLine_full hover, run_flags]
  exact ⟨rfl, run_txQueue i s⟩

/-! ### `S`, `O`, `C` and the commands not implemented (spec/44_cmd_channel.md) -/

/-- The digits `S` takes (R86). -/
theorem bitrateIndex_eq_some_iff {arg : List Byte} {i : Fin 9} :
    bitrateIndex arg = some i ↔ ∃ a rest, arg = a :: rest ∧ a.toNat = 0x30 + i.val := by
  have hi := i.isLt
  cases arg with
  | nil => simp [bitrateIndex]
  | cons a rest =>
    simp only [bitrateIndex, List.cons.injEq, exists_and_right]
    split
    · simp [Fin.ext_iff]; omega
    · simp; omega

/-- `S` with a digit that resolves, where the policy lets it through (R221, R222). -/
theorem handleSetup_selects {arg : List Byte} {s : State} {i : Fin 9} {t : TimingConfig}
    (hi : bitrateIndex arg = some i) (hpolicy : s.channelState = .closed ∨ s.cfg.sWhileOpen = .reconfigureAndClose)
    (ht : resolveIndex s.cfg i = some t) :
    handleSetup arg s = ((s.setBitrate (some i)).setChannel .closed, .response []) := by
  have hpass : ¬ (s.channelState = .opened ∧ s.cfg.sWhileOpen = .reject) := by
    rintro ⟨hopen, hreject⟩
    rcases hpolicy with h | h
    · rw [h] at hopen; cases hopen
    · rw [h] at hreject; cases hreject
  simp only [handleSetup, hi, if_neg hpass, controllerSetBitrate, ht]
  rfl

/-- Settles O18. -/
theorem setupSelectsBitrate : Obligations.SetupSelectsBitrate := by
  intro s i a rest t ha hpolicy ht hroom
  have hi : bitrateIndex (a :: rest) = some i := bitrateIndex_eq_some_iff.mpr ⟨a, rest, rfl, ha⟩
  exact ⟨_, exec_of_run_room (i := .setup (a :: rest)) (handleSetup_selects hi hpolicy ht) hroom, rfl, ht⟩

/-- Settles O19: each of the three causes excludes the one way `S` succeeds. -/
theorem setupFailureRingsBell : Obligations.SetupFailureRingsBell := by
  intro s arg hcause hroom
  rcases handleSetup_cases arg s with ⟨k, hfail, -⟩ | ⟨i, t, hi, ht, hpass, -⟩
  · exact exec_of_run_error (i := .setup arg) hfail hroom
  · obtain ⟨a, rest, rfl, ha⟩ := bitrateIndex_eq_some_iff.mp hi
    rcases hcause with hdigit | hopen | ⟨j, b, rest', harg, hb, hnone⟩
    · have := hdigit a rest rfl
      omega
    · exact absurd hopen hpass
    · cases harg
      have hij : j = i := Fin.ext (by omega)
      rw [hij] at hnone
      cases ht.symm.trans hnone

/-- Settles O20: the third cause of O19, at index 8. -/
theorem unsupportedTopBitrateRingsBell : Obligations.UnsupportedTopBitrateRingsBell := fun s rest htop hroom =>
  setupFailureRingsBell s (0x38 :: rest) (.inr (.inr ⟨8, 0x38, rest, rfl, rfl, htop⟩)) hroom

/-- Settles O21. -/
theorem openCommandOpensChannel : Obligations.OpenCommandOpensChannel := fun s arg =>
  ⟨spells_command .openChannel s.cfg, fun hroom =>
    ⟨_, exec_of_run_room (i := .openChannel arg) (t := s.setChannel .opened) rfl hroom, rfl, rfl⟩⟩

/-- Settles O22. -/
theorem closeCommandClosesChannel : Obligations.CloseCommandClosesChannel := fun s arg =>
  ⟨spells_command .closeChannel s.cfg, fun hroom =>
    ⟨_, exec_of_run_room (i := .closeChannel arg) (t := s.setChannel .closed) rfl hroom, rfl, rfl⟩⟩

/-- What O23 says of one row, for a command whose handler only fails with `NotImplemented`. -/
theorem unimplemented_row (v : Variant) {arg : List Byte} {s : State}
    (hrun : run (v.command arg) s = (s, .error .notImplemented)) :
    (arg.length ≤ s.cfg.cmdArgCap → parse s.cfg (v.byte :: arg) = .ok (v.command arg)) ∧
    (s.cfg.cmdArgCap < arg.length → parse s.cfg (v.byte :: arg) = .error .argumentTooLong) ∧
    run (v.command arg) s = (s, .error .notImplemented) ∧
    (s.Room 1 → exec (v.command arg) s = .next { s with txQueue := s.txQueue ++ [BELL] }) :=
  ⟨spells_command v s.cfg arg, parse_command_long, hrun, exec_of_run_error hrun⟩

/-- Settles O23, row by row. -/
theorem unimplementedCommandsRingBell : Obligations.UnimplementedCommandsRingBell := by
  intro s arg b i hrow
  simp only [List.mem_cons, Prod.mk.injEq, List.not_mem_nil, or_false] at hrow
  rcases hrow with ⟨rfl, rfl⟩ | ⟨rfl, rfl⟩ | ⟨rfl, rfl⟩ | ⟨rfl, rfl⟩ | ⟨rfl, rfl⟩
  · exact unimplemented_row .setupWithBtr rfl
  · exact unimplemented_row .transmitRtrFrame rfl
  · exact unimplemented_row .transmitExtendedRtrFrame rfl
  · exact unimplemented_row .setAcceptanceCode rfl
  · exact unimplemented_row .setAcceptanceMask rfl

/-! ### `t` and `T` (spec/45_cmd_transmit.md) -/

section
variable {v : Variant} {arg : List Byte} {s : State} {f : Frame}

theorem transmitDecoded_accepted (hd : decodeFrame s.cfg.acceptLowercaseHex v arg = some f)
    (ha : nextTxAnswer s = .ok) :
    transmitDecoded v arg s = (s.logRequest f .ok, .response (encodeFrame f true)) := by
  simp only [transmitDecoded, hd, controllerTransmit, ha]

theorem transmitDecoded_refused (hd : decodeFrame s.cfg.acceptLowercaseHex v arg = some f)
    (ha : nextTxAnswer s = .bufferOverrun) :
    transmitDecoded v arg s = (s.logRequest f .bufferOverrun, .error .bufferOverrun) := by
  simp only [transmitDecoded, hd, controllerTransmit, ha]

theorem transmitDecoded_malformed (hd : decodeFrame s.cfg.acceptLowercaseHex v arg = none) :
    transmitDecoded v arg s = (s, .error .invalidCommand) := by
  simp only [transmitDecoded, hd]

end

/-- The reply line of an accepted frame is its encoding and the terminator. -/
theorem replyLine_echo_length (f : Frame) :
    (replyLine (.response (encodeFrame f true))).length = (encodeFrame f true).length + 1 := List.length_append

/-- Settles O24, `t` and `T` alike. -/
theorem acceptedFrameIsEchoed : Obligations.AcceptedFrameIsEchoed := by
  intro s arg f ha hroom
  rw [← replyLine_echo_length] at hroom
  exact ⟨fun hd => exec_of_run_room (i := .transmitFrame arg) (transmitDecoded_accepted hd ha) hroom,
    fun hd => exec_of_run_room (i := .transmitExtendedFrame arg) (transmitDecoded_accepted hd ha) hroom⟩

/-- Settles O25, `t` and `T` alike. -/
theorem refusedFrameRingsBell : Obligations.RefusedFrameRingsBell := fun _ arg _ ha hroom =>
  ⟨fun hd => exec_of_run_room (i := .transmitFrame arg) (transmitDecoded_refused hd ha) hroom,
    fun hd => exec_of_run_room (i := .transmitExtendedFrame arg) (transmitDecoded_refused hd ha) hroom⟩

/-- Settles O26, `t` and `T` alike. -/
theorem malformedTransmitOffersNothing : Obligations.MalformedTransmitOffersNothing := fun _ arg hroom =>
  ⟨fun hd => exec_of_run_error (i := .transmitFrame arg) (transmitDecoded_malformed hd) hroom,
    fun hd => exec_of_run_error (i := .transmitExtendedFrame arg) (transmitDecoded_malformed hd) hroom⟩

/-! ### `F`, `V`, `N`, `Z` (spec/46_cmd_info.md) -/

/-- With the five flags without a writer at 0 the status byte is 0 to 3 (R261). -/
theorem statusReply_mem {f : StatusFlags} (hew : f.errorWarning = false) (hdo : f.dataOverrun = false)
    (hep : f.errorPassive = false) (hal : f.arbitrationLost = false) (hbe : f.busError = false) :
    [0x46] ++ hex2 (statusByte f) ∈
      ([[0x46, 0x30, 0x30], [0x46, 0x30, 0x31], [0x46, 0x30, 0x32], [0x46, 0x30, 0x33]] : List (List Byte)) := by
  obtain ⟨rx, tx, ew, dov, ep, al, be⟩ := f
  subst hew hdo hep hal hbe
  revert rx tx
  decide

/-- Settles O28. -/
theorem statusCommandReadsFlags : Obligations.StatusCommandReadsFlags := by
  refine fun s arg => ⟨spells_command .readStatusFlags s.cfg,
    fun hroom => exec_of_run_room (i := .readStatusFlags arg) rfl hroom,
    fun hfull hcap => exec_of_run_full (i := .readStatusFlags arg) rfl hfull hcap, ?_⟩
  rintro ⟨-, -, -, -, -, ⟨hew, hdo, hep, hal, hbe⟩, -⟩
  exact statusReply_mem hew hdo hep hal hbe

/-- Settles O29. -/
theorem versionCommandAnswersVersion : Obligations.VersionCommandAnswersVersion := by
  refine fun s arg => ⟨spells_command .getVersion s.cfg,
    fun hroom => exec_of_run_room (i := .getVersion arg) rfl hroom, fun hhw hsw => ?_⟩
  rw [hhw, hsw]
  decide

/-- Settles O30. -/
theorem serialNumberCommandAnswersRawBytes : Obligations.SerialNumberCommandAnswersRawBytes := fun s arg =>
  ⟨spells_command .getSerialNumber s.cfg, fun hroom => exec_of_run_room (i := .getSerialNumber arg) rfl hroom⟩

theorem handleEnableTimeStamps_none {arg : List Byte} (s : State) (h : timestampValue arg = none) :
    handleEnableTimeStamps arg s = (s, .error .invalidCommand) := by simp only [handleEnableTimeStamps, h]

/-- Settles O31, argument by argument. -/
theorem timeStampCommandSetsBit : Obligations.TimeStampCommandSetsBit := by
  refine fun s rest => ⟨spells_command .enableTimeStamps s.cfg, fun hroom => ⟨?_, ?_, ?_, fun a h0 h1 => ?_⟩⟩
  · exact exec_of_run_room (i := .enableTimeStamps (0x30 :: rest)) (t := s.setTimestamps false) rfl hroom
  · exact exec_of_run_room (i := .enableTimeStamps (0x31 :: rest)) (t := s.setTimestamps true) rfl hroom
  · exact exec_of_run_error (i := .enableTimeStamps []) rfl hroom
  · have hnone : timestampValue (a :: rest) = none := by simp only [timestampValue, if_neg h0, if_neg h1]
    exact exec_of_run_error (i := .enableTimeStamps (a :: rest)) (handleEnableTimeStamps_none s hnone) hroom

end Sys2Proof.Machine
end

