-- ==== Sys2Proof/Proofs/Frames.lean ====
section
/-! What commands leave unchanged, and how much they answer: the bounds of a reply (R203, R205), what a failing handler
leaves (R196), and the frame of every command (R220 to R266). -/

namespace Sys2Proof.Machine

/-! ### The reply's length -/

theorem replyLine_length_pos (r : Reply) : 1 ≤ (replyLine r).length := by cases r <;> simp [replyLine]

theorem frameLine_length_le (f : Frame) : (encodeFrame f true ++ [CR]).length ≤ 27 := by
  have := encodeFrame_true_length_le f
  simp only [List.length_append, List.length_singleton]
  omega

theorem frameLine_length_ge (f : Frame) : 6 ≤ (encodeFrame f true ++ [CR]).length := by
  have hid : 3 ≤ idDigits (frameKind f) := by cases frameKind f <;> decide
  simp only [encodeFrame_true, List.length_append, List.length_cons, List.length_nil, encodeFrame_false_length]
  omega

theorem transmitDecoded_replyLine_length_le (v : Variant) (arg : List Byte) (s : State) :
    (replyLine (transmitDecoded v arg s).2).length ≤ 27 := by
  rcases transmitDecoded_cases v arg s with ⟨_, h⟩ | ⟨f, _, ⟨_, h⟩ | ⟨_, h⟩⟩ <;> rw [h]
  · simp [replyLine]
  · simp [replyLine]
  · exact frameLine_length_le f

/-- No reply line is longer than that of the longest frame (R203). -/
theorem run_replyLine_length_le (i : Instr) (s : State) : (replyLine (run i s).2).length ≤ 27 := by
  cases i with
  | setup arg =>
    rcases handleSetup_cases arg s with ⟨k, h, _⟩ | ⟨_, _, _, _, _, h⟩ <;> simp [run, h, replyLine]
  | transmitFrame arg => exact transmitDecoded_replyLine_length_le _ arg s
  | transmitExtendedFrame arg => exact transmitDecoded_replyLine_length_le _ arg s
  | enableTimeStamps arg =>
    rcases handleEnableTimeStamps_cases arg s with ⟨_, h⟩ | ⟨_, _, h⟩ <;> simp [run, h, replyLine]
  | setupWithBtr _ | transmitRtrFrame _ | transmitExtendedRtrFrame _ | setAcceptanceCode _ | setAcceptanceMask _ =>
    exact (by decide : [BELL].length ≤ 27)
  | openChannel _ | closeChannel _ => exact (by decide : [CR].length ≤ 27)
  | readStatusFlags _ => exact (by decide : 4 ≤ 27)
  | getVersion _ | getSerialNumber _ => exact (by decide : 6 ≤ 27)

/-- Settles O34: valid parameters have a `txCap` of at least 27. -/
theorem repliesHaveOneTo27Bytes : Obligations.RepliesHaveOneTo27Bytes := by
  refine ⟨fun i s => ⟨replyLine_length_pos _, run_replyLine_length_le i s, fun hvalid hempty => ?_⟩,
    fun f => ⟨frameLine_length_ge f, frameLine_length_le f⟩⟩
  obtain ⟨-, htxCap, -⟩ := hvalid
  have hle := run_replyLine_length_le i s
  rw [State.Room, hempty, List.length_nil]
  omega

/-! ### A handler that fails -/

/-- What a failed `t` or `T` leaves: nothing changed, or the refused request recorded. -/
theorem transmitDecoded_error {v : Variant} {arg : List Byte} {s : State} {k : ErrorKind}
    (h : (transmitDecoded v arg s).2 = .error k) :
    (k = .invalidCommand ∧ (transmitDecoded v arg s).1 = s) ∨
      (k = .bufferOverrun ∧ ∃ f, (transmitDecoded v arg s).1 = s.logRequest f .bufferOverrun) := by
  rcases transmitDecoded_cases v arg s with ⟨_, hx⟩ | ⟨f, _, ⟨_, hx⟩ | ⟨_, hx⟩⟩ <;> rw [hx] at h ⊢ <;> cases h
  · exact .inl ⟨rfl, rfl⟩
  · exact .inr ⟨rfl, f, rfl⟩

/-- What O35 says of `t` and `T`, where the handler is `transmitDecoded`. -/
theorem transmit_error_changes_nothing {i : Instr} {s : State} {k : ErrorKind} {v : Variant} {arg : List Byte}
    (hi : i = .transmitFrame arg ∨ i = .transmitExtendedFrame arg) (hrun : run i s = transmitDecoded v arg s)
    (h : (run i s).2 = .error k) :
    k ≠ .queueFull ∧
    ((run i s).1 = s ∨
      (k = .bufferOverrun ∧ (∃ arg, i = .transmitFrame arg ∨ i = .transmitExtendedFrame arg) ∧
        ∃ f, (run i s).1 = { s with canReq := s.canReq ++ [(f, .bufferOverrun)], txAnswers := s.txAnswers.tail })) := by
  rw [hrun] at h ⊢
  rcases transmitDecoded_error h with ⟨rfl, hs⟩ | ⟨rfl, f, hs⟩
  · exact ⟨nofun, .inl hs⟩
  · exact ⟨nofun, .inr ⟨rfl, ⟨arg, hi⟩, f, hs⟩⟩

/-- Settles O35, handler by handler. -/
theorem failingHandlerChangesNothing : Obligations.FailingHandlerChangesNothing := by
  intro i s k h
  cases i with
  | setup arg =>
    rcases handleSetup_cases arg s with ⟨k', hx, hk⟩ | ⟨_, _, _, _, _, hx⟩ <;> simp only [run, hx] at h <;> cases h
    exact ⟨by rcases hk with rfl | rfl <;> nofun, .inl (congrArg Prod.fst hx)⟩
  | transmitFrame arg => exact transmit_error_changes_nothing (.inl rfl) rfl h
  | transmitExtendedFrame arg => exact transmit_error_changes_nothing (.inr rfl) rfl h
  | enableTimeStamps arg =>
    rcases handleEnableTimeStamps_cases arg s with ⟨_, hx⟩ | ⟨_, _, hx⟩ <;> simp only [run, hx] at h <;> cases h
    exact ⟨nofun, .inl (congrArg Prod.fst hx)⟩
  | setupWithBtr _ | transmitRtrFrame _ | transmitExtendedRtrFrame _ | setAcceptanceCode _ | setAcceptanceMask _ =>
    cases h
    exact ⟨nofun, .inl rfl⟩
  | openChannel _ | closeChannel _ | readStatusFlags _ | getVersion _ | getSerialNumber _ => cases h

/-! ### The frame of every command -/

/-- The state a command leaves is its handler's with the reply line pushed (R197). -/
theorem eq_of_exec {i : Instr} {s t : State} (h : exec i s = .next t) :
    t = pushLine (replyLine (run i s).2) (run i s).1 := by
  rw [exec_eq_pushLine] at h
  cases h
  rfl

/-- Pushing a line keeps the command frame: the line is appended, or the flag is set (R198). -/
theorem pushLine_commandFrame (bs : List Byte) (s : State) : CommandFrame s (pushLine bs s) := by
  refine ⟨by simp, by simp, by simp, by simp, by simp, by simp, by simp, by simp, by simp, pushLine_flags bs s, ?_⟩
  rcases pushLine_txQueue bs s with hx | hx
  · exact ⟨bs, hx.symm⟩
  · exact ⟨[], by rw [hx, List.append_nil]⟩

/-- Every command keeps its frame: no handler writes any of it. -/
theorem exec_commandFrame {i : Instr} {s t : State} (h : exec i s = .next t) : CommandFrame s t := by
  have hframe := pushLine_commandFrame (replyLine (run i s).2) (run i s).1
  rw [← eq_of_exec h] at hframe
  simpa only [CommandFrame, run_cfg, run_hardwareVersion, run_softwareVersion, run_serialNumber, run_rxQueue,
    run_engineState, run_serOut, run_canPolls, run_events, run_flags, run_txQueue] using hframe

/-- The registers the reply does not touch are the handler's. -/
theorem exec_registers {i : Instr} {s t : State} (h : exec i s = .next t) :
    t.channelState = (run i s).1.channelState ∧ t.bitrate = (run i s).1.bitrate ∧
    t.timestamps = (run i s).1.timestamps ∧ t.canReq = (run i s).1.canReq ∧ t.txAnswers = (run i s).1.txAnswers := by
  rw [eq_of_exec h]
  simp

/-- Settles O36: the eight handlers leave the state as it is. -/
theorem readOnlyCommandsChangeNoRegister : Obligations.ReadOnlyCommandsChangeNoRegister := by
  intro s t arg i hi h
  have hrun : (run i s).1 = s := by
    simp only [List.mem_cons, List.not_mem_nil, or_false] at hi
    rcases hi with rfl | rfl | rfl | rfl | rfl | rfl | rfl | rfl <;> rfl
  have hregs := exec_registers h
  rw [hrun] at hregs
  exact ⟨exec_commandFrame h, hregs⟩

/-- What `handle_S` keeps, and the one way it may move the channel state (R221). -/
theorem handleSetup_frame (arg : List Byte) (s : State) :
    ((handleSetup arg s).1.timestamps = s.timestamps ∧ (handleSetup arg s).1.canReq = s.canReq ∧
      (handleSetup arg s).1.txAnswers = s.txAnswers) ∧
    ((handleSetup arg s).1.channelState = s.channelState ∨ (handleSetup arg s).1.channelState = .closed) := by
  rcases handleSetup_cases arg s with ⟨_, hx, _⟩ | ⟨_, _, _, _, _, hx⟩ <;> simp [hx]

/-- Settles O37. -/
theorem channelCommandsChangeOnlyChannelRegisters : Obligations.ChannelCommandsChangeOnlyChannelRegisters := by
  refine fun s t arg => ⟨fun i hi h => ⟨exec_commandFrame h, ?_⟩, fun h => (exec_registers h).2.1,
    fun h => (exec_registers h).2.1, fun h => ?_⟩
  · have hrun : (run i s).1.timestamps = s.timestamps ∧ (run i s).1.canReq = s.canReq ∧
        (run i s).1.txAnswers = s.txAnswers := by
      simp only [List.mem_cons, List.not_mem_nil, or_false] at hi
      rcases hi with rfl | rfl | rfl
      · exact (handleSetup_frame arg s).1
      · exact ⟨rfl, rfl, rfl⟩
      · exact ⟨rfl, rfl, rfl⟩
    obtain ⟨-, -, htime, hreq, hans⟩ := exec_registers h
    rwa [htime, hreq, hans]
  · rw [(exec_registers h).1]
    exact (handleSetup_frame arg s).2

/-- Settles O38: `t` and `T` run `transmitDecoded` under their own variant. -/
theorem transmitCommandsChangeNoRegister : Obligations.TransmitCommandsChangeNoRegister := by
  intro s t arg i hi h
  have hrun : run i s = transmitDecoded i.variant arg s := by
    simp only [List.mem_cons, List.not_mem_nil, or_false] at hi
    rcases hi with rfl | rfl <;> rfl
  obtain ⟨hchan, hbit, htime, hreq, hans⟩ := exec_registers h
  rw [hchan, hbit, htime, hreq, hans, hrun]
  refine ⟨exec_commandFrame h, ?_⟩
  rcases transmitDecoded_cases i.variant arg s with ⟨_, hx⟩ | ⟨f, hd, ⟨ha, hx⟩ | ⟨ha, hx⟩⟩ <;> rw [hx]
  · exact ⟨rfl, rfl, rfl, .inl ⟨rfl, rfl⟩⟩
  · exact ⟨rfl, rfl, rfl, .inr ⟨f, hd, by rw [ha]; rfl, rfl⟩⟩
  · exact ⟨rfl, rfl, rfl, .inr ⟨f, hd, by rw [ha]; rfl, rfl⟩⟩

/-- Settles O39. -/
theorem timeStampCommandChangesOnlyItsBit : Obligations.TimeStampCommandChangesOnlyItsBit := by
  intro s t arg h
  have hrun : run (.enableTimeStamps arg) s = handleEnableTimeStamps arg s := rfl
  obtain ⟨hchan, hbit, -, hreq, hans⟩ := exec_registers h
  rw [hchan, hbit, hreq, hans, hrun]
  refine ⟨exec_commandFrame h, ?_⟩
  rcases handleEnableTimeStamps_cases arg s with ⟨_, hx⟩ | ⟨_, _, hx⟩ <;> rw [hx]
  · exact ⟨rfl, rfl, rfl, rfl⟩
  · exact ⟨rfl, rfl, rfl, rfl⟩

end Sys2Proof.Machine
end

