-- ==== Sys2Proof/Proofs/Agents.lean ====
section
/-! The agents' steps (spec/47_engine.md, spec/48_agents.md, spec/70_reset_and_hazards.md): each step written out, and the
state each agent touches (R315). -/

namespace Sys2Proof.Machine

/-- A step at a terminator executes the line in progress on the drained state (R291, R292). -/
theorem step_terminator {s : State} {es : List Event} (hv : s.cfg.Valid) (he : s.events = .rxByte CR :: es) :
    step s = executeLine s.rxQueue ((s.setEvents es).setRxQueue []) := by
  rw [step_cons hv he]
  exact rxByte_CR _

/-- A step at any other byte accumulates it (R293). -/
theorem step_accumulates {s : State} {es : List Event} {b : Byte} (hv : s.cfg.Valid) (he : s.events = .rxByte b :: es)
    (hb : b ≠ CR) : step s = .next (accumulate b (s.setEvents es)) := by
  rw [step_cons hv he]
  exact rxByte_of_ne hb _

theorem executeLine_ok {line : List Byte} {s : State} {i : Instr} (h : parse s.cfg line = .ok i) :
    executeLine line s = exec i s := by simp only [executeLine, h]

theorem executeLine_error {line : List Byte} {s : State} {e : DecodeError} (h : parse s.cfg line = .error e) :
    executeLine line s = .next (pushLine [BELL] s) := by simp only [executeLine, h, takeError_eq]

/-- Settles O40. -/
theorem stepRunsTheDecodedCommand : Obligations.StepRunsTheDecodedCommand := by
  intro s es i hv he hp
  rw [step_terminator hv he]
  exact executeLine_ok hp

/-- Of the parameters `parse` reads the argument bound only (R191). -/
theorem parse_congr {c c' : Config} (h : c.cmdArgCap = c'.cmdArgCap) (line : List Byte) : parse c line = parse c' line := by
  simp only [parse, h]

theorem parse_of_decodeTableWord {nbits w : Nat} {i : Instr} (h : decodeTableWord nbits w = some i) :
    parse Config.referenceA (lineOfWord nbits w) = .ok i := by
  unfold decodeTableWord at h
  split at h
  · rename_i hp
    cases h
    exact hp
  · cases h

/-- Settles O41: the bound of `decodeTableWord` is the machine's. -/
theorem fetchedWordRunsNext : Obligations.FetchedWordRunsNext := by
  intro s nbits w i hv hcap hw
  have hp : parse s.cfg (lineOfWord nbits w) = .ok i := (parse_congr hcap _).trans (parse_of_decodeTableWord hw)
  exact stepRunsTheDecodedCommand (s.withFetchWord nbits w) s.events i hv rfl hp

/-- Settles O42. -/
theorem illegalLineRingsBell : Obligations.IllegalLineRingsBell := by
  intro s es e hv he hp
  rw [step_terminator hv he, executeLine_error (s := (s.setEvents es).setRxQueue []) hp]
  constructor
  · intro hroom
    exact congrArg _ (pushLine_room hroom)
  · intro hfull
    have hover : s.cfg.txCap - s.txQueue.length < [BELL].length := by
      rw [List.length_singleton]
      omega
    exact congrArg _ (pushLine_full hover)

/-- Settles O43. -/
theorem byteIsAccumulatedOrDropped : Obligations.ByteIsAccumulatedOrDropped := by
  intro s es b hv he hb
  rw [step_accumulates hv he hb]
  exact ⟨fun hroom => congrArg _ (accumulate_room hroom.ne), fun hfull => congrArg _ (accumulate_full hfull)⟩

/-- Settles O46. -/
theorem flushHandsOverOldestByte : Obligations.FlushHandsOverOldestByte := by
  intro s es b q hv he hq
  rw [step_cons hv he]
  exact congrArg Host.Outcome.next (flush_cons (s := s.setEvents es) hq)

/-- Settles O48: a frame's line is pushed whole or not at all. -/
theorem pollForwardsReceivedFrame : Obligations.PollForwardsReceivedFrame := by
  refine fun s es hv => ⟨fun he => step_cons hv he, fun f he => ?_⟩
  have hlen : (encodeFrame f true ++ [CR]).length = (encodeFrame f true).length + 1 := List.length_append
  rw [step_cons hv he, ← hlen]
  refine ⟨⟨frameLine_length_ge f, frameLine_length_le f⟩, fun hroom => ?_, fun hfull => ?_⟩
  · exact congrArg Host.Outcome.next (pushLine_room (s := (s.setEvents es).logPoll) hroom)
  · have hover : s.cfg.txCap - s.txQueue.length < (encodeFrame f true ++ [CR]).length := by omega
    exact congrArg Host.Outcome.next (pushLine_full (s := (s.setEvents es).logPoll) hover)

/-- Settles O49. -/
theorem resetStepRestoresResetValues : Obligations.ResetStepRestoresResetValues := by
  intro s es hv he
  exact ⟨_, step_cons hv he, rfl, rfl, rfl, rfl, rfl, rfl, rfl, rfl, rfl, rfl, rfl, rfl, rfl⟩

/-- Settles O50. -/
theorem resetStateHoldsSpecValues : Obligations.ResetStateHoldsSpecValues :=
  ⟨fun _ _ _ => ⟨rfl, rfl, rfl, rfl, rfl, rfl, rfl, rfl, rfl, rfl⟩, rfl, rfl, rfl⟩

/-- At the terminator of a frame's own line the machine has that frame to transmit (R169, R171). -/
theorem parse_encodeFrame {c : Config} (hv : c.Valid) (f : Frame) :
    parse c (encodeFrame f true) = .ok ((kindVariant (frameKind f)).command (encodeFrame f false)) := by
  obtain ⟨-, -, hcap, -⟩ := hv
  have hlen := encodeFrame_true_length_le f
  rw [encodeFrame_true, List.length_cons] at hlen
  rw [encodeFrame_true, typeByte_eq_byte]
  exact spells_command _ c _ (by omega)

theorem run_kindVariant (k : FrameKind) (arg : List Byte) (s : State) :
    run ((kindVariant k).command arg) s = transmitDecoded (kindVariant k) arg s := by cases k <;> rfl

/-- Settles O27: the line decodes, its arguments decode to the frame, and the echo is the line again. -/
theorem everyFrameCanBeSent : Obligations.EveryFrameCanBeSent := by
  intro s f es hv he hline hans hroom
  have hrun := (run_kindVariant (frameKind f) (encodeFrame f false) ((s.setEvents es).setRxQueue [])).trans
    (transmitDecoded_accepted (decodeFrame_encodeFrame _ f) hans)
  rw [step_terminator hv he, hline,
    executeLine_ok (s := (s.setEvents es).setRxQueue []) (parse_encodeFrame hv f)]
  rw [← replyLine_echo_length] at hroom
  exact exec_of_run_room hrun hroom

/-! ### What each agent touches -/

/-- The poller's whole effect (R315). -/
theorem canPoll_frame (a : Option Frame) (s : State) : canPoll a s = { s with
    txQueue := (canPoll a s).txQueue, canPolls := s.canPolls + 1
    flags := { s.flags with txQueueFull := (canPoll a s).flags.txQueueFull } } := by
  cases a with
  | none => rfl
  | some f =>
    rw [canPoll_some]
    rcases pushLine_cases (encodeFrame f true ++ [CR]) s.logPoll with ⟨_, h⟩ | ⟨_, h⟩ <;> rw [h] <;> rfl

/-- The flusher's whole effect (R315). -/
theorem flush_frame (s : State) : flush s = { s with txQueue := (flush s).txQueue, serOut := (flush s).serOut } := by
  cases hq : s.txQueue with
  | nil => rw [flush_nil hq]
  | cons b q => rw [flush_cons hq]; rfl

/-- The accumulate branch's whole effect (R293). -/
theorem accumulate_frame (b : Byte) (s : State) : accumulate b s = { s with
    rxQueue := (accumulate b s).rxQueue
    flags := { s.flags with rxQueueFull := (accumulate b s).flags.rxQueueFull } } := by
  rcases accumulate_cases b s with ⟨_, h⟩ | ⟨_, h⟩ <;> rw [h] <;> rfl

/-- What executing a line never touches (R315): the command frame, but that a parse error is taken as well. -/
theorem executeLine_commandFrame {line : List Byte} {s t : State} (h : executeLine line s = .next t) :
    CommandFrame s t := by
  cases hp : parse s.cfg line with
  | ok i =>
    rw [executeLine_ok hp] at h
    exact exec_commandFrame h
  | error e =>
    rw [executeLine_error hp] at h
    cases h
    exact pushLine_commandFrame [BELL] s

/-- Settles O58. -/
theorem agentsTouchOnlyTheirState : Obligations.AgentsTouchOnlyTheirState := by
  refine ⟨fun s a => canPoll_frame a s, flush_frame, fun s t b h => ?_⟩
  by_cases hb : b = CR
  · rw [hb, rxByte_CR] at h
    obtain ⟨hcfg, hhw, hsw, hsn, -, -, hser, hpolls, hev, -, htx⟩ := executeLine_commandFrame h
    exact ⟨hser, hpolls, hev, hhw, hsw, hsn, hcfg, htx⟩
  · rw [rxByte_of_ne hb] at h
    cases h
    rw [accumulate_frame]
    exact ⟨rfl, rfl, rfl, rfl, rfl, rfl, rfl, ⟨[], List.append_nil _⟩⟩

/-! ### A step always completes -/

/-- Every agent's move completes and keeps the parameters (R333). -/
theorem agentStep_completes (e : Event) (s : State) : ∃ t, agentStep e s = .next t ∧ t.cfg = s.cfg := by
  cases e with
  | rxByte b =>
    by_cases hb : b = CR
    · subst hb
      simp only [agentStep, rxByte_CR]
      rcases executeLine_cases s.rxQueue (s.setRxQueue []) with ⟨_, _, h⟩ | ⟨_, _, h⟩
      · exact ⟨_, h, by simp⟩
      · exact ⟨_, h, by simp⟩
    · exact ⟨_, rxByte_of_ne hb s, by rw [accumulate_frame]⟩
  | canPoll a => exact ⟨_, rfl, by rw [canPoll_frame]⟩
  | flush => exact ⟨_, rfl, by rw [flush_frame]⟩
  | reset => exact ⟨_, rfl, rfl⟩

/-- Settles O53. -/
theorem stepCompletesExactlyOnValidParameters : Obligations.StepCompletesExactlyOnValidParameters := by
  refine fun s => ⟨fun hv => ?_, step_invalid⟩
  cases he : s.events with
  | nil => exact ⟨s, step_nil hv he, rfl⟩
  | cons e es =>
    rw [step_cons hv he]
    exact agentStep_completes e (s.setEvents es)

end Sys2Proof.Machine
end

