-- ==== Sys2Proof/Proofs/Invariant.lean ====
section
/-! The invariant (R51, R52, R27, R226): it holds at reset, each operation of the agents keeps it, so every step does. -/

namespace Sys2Proof.Machine

theorem initial_inv {c : Config} (es : List Event) (as : List TxAnswer) (hv : c.Valid) : (State.initial c es as).Inv :=
  ⟨hv, Nat.zero_le _, Nat.zero_le _, List.not_mem_nil, nofun, ⟨rfl, rfl, rfl, rfl, rfl⟩, rfl, rfl, rfl⟩

/-- Settles O51. -/
theorem resetMeetsInvariant : Obligations.ResetMeetsInvariant :=
  ⟨fun _ es as => initial_inv es as, initial_inv [] [] (by decide)⟩

section
variable {s : State} (hinv : s.Inv)
include hinv

theorem setEvents_inv (es : List Event) : (s.setEvents es).Inv := hinv

theorem drained_inv : (s.setRxQueue []).Inv := by
  obtain ⟨hv, -, htx, -, hrest⟩ := hinv
  exact ⟨hv, Nat.zero_le _, htx, List.not_mem_nil, hrest⟩

theorem pushLine_inv (bs : List Byte) : (pushLine bs s).Inv := by
  obtain ⟨hv, hrx, htx, hcr, hbit, hflags, hconst⟩ := hinv
  rcases pushLine_cases bs s with ⟨hfit, h⟩ | ⟨-, h⟩ <;> rw [h]
  · refine ⟨hv, hrx, ?_, hcr, hbit, hflags, hconst⟩
    simp only [State.setTxQueue_txQueue, State.setTxQueue_cfg, List.length_append]
    omega
  · exact ⟨hv, hrx, htx, hcr, hbit, hflags, hconst⟩

theorem accumulate_inv {b : Byte} (hb : b ≠ CR) : (accumulate b s).Inv := by
  obtain ⟨hv, hrx, htx, hcr, hbit, hflags, hconst⟩ := hinv
  rcases accumulate_cases b s with ⟨hroom, h⟩ | ⟨-, h⟩ <;> rw [h]
  · refine ⟨hv, ?_, htx, ?_, hbit, hflags, hconst⟩
    · simp only [State.setRxQueue_rxQueue, State.setRxQueue_cfg, List.length_append, List.length_singleton]
      omega
    · simpa [hcr] using hb.symm
  · exact ⟨hv, hrx, htx, hcr, hbit, hflags, hconst⟩

/-- The one write of a handler the invariant speaks of is `S`'s, of an index that resolves (R226). -/
theorem run_inv (i : Instr) : (run i s).1.Inv := by
  rcases run_state_cases i s with h | ⟨n, t, -, ht, -, h⟩ | ⟨-, h⟩ | ⟨-, h⟩ | ⟨f, a, -, h⟩ | ⟨v, -, h⟩ <;> rw [h]
  · exact hinv
  · obtain ⟨hv, hrx, htx, hcr, -, hrest⟩ := hinv
    refine ⟨hv, hrx, htx, hcr, ?_, hrest⟩
    rintro j ⟨⟩
    exact Option.isSome_iff_exists.mpr ⟨t, ht⟩
  all_goals exact hinv

theorem flush_inv : (flush s).Inv := by
  cases hq : s.txQueue with
  | nil => rwa [flush_nil hq]
  | cons b q =>
    obtain ⟨hv, hrx, htx, hrest⟩ := hinv
    rw [hq, List.length_cons] at htx
    rw [flush_cons hq]
    exact ⟨hv, hrx, Nat.le_of_succ_le htx, hrest⟩

theorem canPoll_inv (a : Option Frame) : (canPoll a s).Inv := by
  have hpoll : s.logPoll.Inv := hinv
  cases a with
  | none => exact hpoll
  | some f => exact pushLine_inv hpoll _

theorem resetStep_inv : (resetStep s).Inv := initial_inv s.events s.txAnswers hinv.1

end

/-- Settles O52: each of the seven things a step can do keeps the invariant. -/
theorem everyStepKeepsInvariant : Obligations.EveryStepKeepsInvariant := by
  intro s t hinv h
  have hnext (es : List Event) : (s.setEvents es).Inv := setEvents_inv hinv es
  obtain ⟨-, ⟨-, rfl⟩ | ⟨b, es, -, hb, rfl⟩ | ⟨es, -, -, -, rfl⟩ | ⟨es, i, -, -, rfl⟩ | ⟨a, es, -, rfl⟩ |
    ⟨es, -, rfl⟩ | ⟨es, -, rfl⟩⟩ := step_cases h
  · exact hinv
  · exact accumulate_inv (hnext es) hb
  · exact pushLine_inv (drained_inv (hnext es)) _
  · exact pushLine_inv (run_inv (drained_inv (hnext es)) i) _
  · exact canPoll_inv (hnext es) a
  · exact flush_inv (hnext es)
  · exact resetStep_inv (hnext es)

end Sys2Proof.Machine
end

