-- ==== Sys2Proof/Proofs/Noninterference.lean ====
section
/-! What does not depend on what: which lines move the channel and the bitrate (R226), the time-stamp bit that nothing
reads (R30), and the flusher that does not disturb the receiver (R66, R314). -/

namespace Sys2Proof.Machine

/-! ### Who moves the channel and the bitrate -/

/-- Under `reject` only `O` and `C` move the channel state: `S` then runs on a Closed channel only (R222, R226). -/
theorem run_moves_channel {i : Instr} {s : State} (hpolicy : s.cfg.sWhileOpen = .reject)
    (h : (run i s).1.channelState ≠ s.channelState) :
    (∃ arg, i = .openChannel arg ∧ (run i s).1.channelState = .opened) ∨
    (∃ arg, i = .closeChannel arg ∧ (run i s).1.channelState = .closed) := by
  rcases run_state_cases i s with hx | ⟨n, t, -, -, hpass, hx⟩ | ⟨⟨arg, hi⟩, hx⟩ | ⟨⟨arg, hi⟩, hx⟩ | ⟨f, a, -, hx⟩ |
    ⟨v, -, hx⟩ <;> rw [hx] at h ⊢
  · exact absurd rfl h
  · cases hc : s.channelState with
    | closed => exact absurd hc.symm h
    | opened => exact absurd ⟨hc, hpolicy⟩ hpass
  · exact .inl ⟨arg, hi, rfl⟩
  · exact .inr ⟨arg, hi, rfl⟩
  · exact absurd rfl h
  · exact absurd rfl h

/-- Only `S` moves the bitrate (R24). -/
theorem run_moves_bitrate {i : Instr} {s : State} (h : (run i s).1.bitrate ≠ s.bitrate) : ∃ arg, i = .setup arg := by
  rcases run_state_cases i s with hx | ⟨n, t, hi, -, -, -⟩ | ⟨-, hx⟩ | ⟨-, hx⟩ | ⟨f, a, -, hx⟩ | ⟨v, -, hx⟩
  · exact absurd (congrArg State.bitrate hx) h
  · exact hi
  all_goals exact absurd (congrArg State.bitrate hx) h

/-- A step other than a reset keeps both registers, or gives them what the line's command gives them. -/
theorem step_channel_bitrate {s t : State} (h : step s = .next t) (hr : ∀ es, s.events ≠ .reset :: es) :
    (t.channelState = s.channelState ∧ t.bitrate = s.bitrate) ∨
    ∃ es i, s.events = .rxByte CR :: es ∧ encode i = s.rxQueue ∧
      t.channelState = (run i ((s.setEvents es).setRxQueue [])).1.channelState ∧
      t.bitrate = (run i ((s.setEvents es).setRxQueue [])).1.bitrate := by
  obtain ⟨-, ⟨-, rfl⟩ | ⟨b, es, -, -, rfl⟩ | ⟨es, -, -, -, rfl⟩ | ⟨es, i, he, hp, rfl⟩ | ⟨a, es, -, rfl⟩ |
    ⟨es, -, rfl⟩ | ⟨es, he, -⟩⟩ := step_cases h
  · exact .inl ⟨rfl, rfl⟩
  · rw [accumulate_frame]; exact .inl ⟨rfl, rfl⟩
  · exact .inl ⟨by simp, by simp⟩
  · exact .inr ⟨es, i, he, (parse_eq_ok_iff.mp hp).1, by simp, by simp⟩
  · rw [canPoll_frame]; exact .inl ⟨rfl, rfl⟩
  · rw [flush_frame]; exact .inl ⟨rfl, rfl⟩
  · exact absurd he (hr es)

/-- Settles O55: a register that moved was moved by the line's command, whose letter the line begins with. -/
theorem onlyTheirCommandsMoveChannelAndBitrate : Obligations.OnlyTheirCommandsMoveChannelAndBitrate := by
  intro s t h hr
  rcases step_channel_bitrate h hr with ⟨hchan, hbit⟩ | ⟨es, i, he, hline, hchan, hbit⟩
  · exact ⟨fun _ hmoved => absurd hchan hmoved, fun hmoved => absurd hbit hmoved⟩
  · rw [hchan, hbit, ← hline]
    refine ⟨fun hpolicy hmoved => ?_, fun hmoved => ?_⟩
    · rcases run_moves_channel (s := (s.setEvents es).setRxQueue []) hpolicy hmoved with
        ⟨arg, rfl, hopen⟩ | ⟨arg, rfl, hclosed⟩
      · exact ⟨es, arg, he, .inl ⟨rfl, hopen⟩⟩
      · exact ⟨es, arg, he, .inr ⟨rfl, hclosed⟩⟩
    · obtain ⟨arg, rfl⟩ := run_moves_bitrate (s := (s.setEvents es).setRxQueue []) hmoved
      exact ⟨es, arg, he, rfl⟩

/-! ### A relation the handlers do not see -/

/-- States related by `R` agree on everything a handler reads, and the handlers' writes keep them related. -/
structure HandlersBlindTo (R : State → State → Prop) : Prop where
  cfg : ∀ {s s'}, R s s' → s'.cfg = s.cfg
  channelState : ∀ {s s'}, R s s' → s'.channelState = s.channelState
  flags : ∀ {s s'}, R s s' → s'.flags = s.flags
  hardwareVersion : ∀ {s s'}, R s s' → s'.hardwareVersion = s.hardwareVersion
  softwareVersion : ∀ {s s'}, R s s' → s'.softwareVersion = s.softwareVersion
  serialNumber : ∀ {s s'}, R s s' → s'.serialNumber = s.serialNumber
  nextTxAnswer : ∀ {s s'}, R s s' → nextTxAnswer s' = nextTxAnswer s
  setBitrate : ∀ {s s'} v, R s s' → R (s.setBitrate v) (s'.setBitrate v)
  setChannel : ∀ {s s'} v, R s s' → R (s.setChannel v) (s'.setChannel v)
  logRequest : ∀ {s s'} f a, R s s' → R (s.logRequest f a) (s'.logRequest f a)
  setTimestamps : ∀ {s s'} v, R s s' → R (s.setTimestamps v) (s'.setTimestamps v)

section
variable {R : State → State → Prop} (hR : HandlersBlindTo R) {s s' : State} (h : R s s')
include hR h

theorem handleSetup_blind (arg : List Byte) :
    R (handleSetup arg s).1 (handleSetup arg s').1 ∧ (handleSetup arg s').2 = (handleSetup arg s).2 := by
  simp only [handleSetup, controllerSetBitrate, hR.cfg h, hR.channelState h]
  cases bitrateIndex arg with
  | none => exact ⟨h, rfl⟩
  | some i =>
    by_cases hopen : s.channelState = .opened ∧ s.cfg.sWhileOpen = .reject
    · simp only [hopen, and_self, if_true]; exact ⟨h, trivial⟩
    · simp only [hopen, if_false]
      cases resolveIndex s.cfg i with
      | none => exact ⟨h, rfl⟩
      | some t => exact ⟨hR.setChannel _ (hR.setBitrate _ h), rfl⟩

theorem transmitDecoded_blind (v : Variant) (arg : List Byte) :
    R (transmitDecoded v arg s).1 (transmitDecoded v arg s').1 ∧
      (transmitDecoded v arg s').2 = (transmitDecoded v arg s).2 := by
  simp only [transmitDecoded, controllerTransmit, hR.cfg h, hR.nextTxAnswer h]
  cases decodeFrame s.cfg.acceptLowercaseHex v arg with
  | none => exact ⟨h, rfl⟩
  | some f =>
    cases nextTxAnswer s with
    | ok => exact ⟨hR.logRequest f _ h, rfl⟩
    | bufferOverrun => exact ⟨hR.logRequest f _ h, rfl⟩

/-- From related states a handler answers alike and leaves related states. -/
theorem run_blind (i : Instr) : R (run i s).1 (run i s').1 ∧ (run i s').2 = (run i s).2 := by
  cases i with
  | setup arg => exact handleSetup_blind hR h arg
  | transmitFrame arg => exact transmitDecoded_blind hR h _ arg
  | transmitExtendedFrame arg => exact transmitDecoded_blind hR h _ arg
  | enableTimeStamps arg =>
    simp only [run, handleEnableTimeStamps]
    cases timestampValue arg with
    | none => exact ⟨h, rfl⟩
    | some v => exact ⟨hR.setTimestamps v h, rfl⟩
  | openChannel _ | closeChannel _ => exact ⟨hR.setChannel _ h, rfl⟩
  | readStatusFlags _ => exact ⟨h, by simp only [run, handleReadStatusFlags, hR.flags h]⟩
  | getVersion _ =>
    exact ⟨h, by simp only [run, handleGetVersion, hR.hardwareVersion h, hR.softwareVersion h]⟩
  | getSerialNumber _ => exact ⟨h, by simp only [run, handleGetSerialNumber, hR.serialNumber h]⟩
  | setupWithBtr _ | transmitRtrFrame _ | transmitExtendedRtrFrame _ | setAcceptanceCode _ | setAcceptanceMask _ =>
    exact ⟨h, rfl⟩

end

/-! ### The time-stamp bit -/

/-- `s'` is `s` but perhaps for the time-stamp bit. -/
def SameButTimestamps (s s' : State) : Prop := ∃ v, s' = s.setTimestamps v

theorem handlersBlindTo_timestamps : HandlersBlindTo SameButTimestamps where
  cfg := by rintro s _ ⟨v, rfl⟩; rfl
  channelState := by rintro s _ ⟨v, rfl⟩; rfl
  flags := by rintro s _ ⟨v, rfl⟩; rfl
  hardwareVersion := by rintro s _ ⟨v, rfl⟩; rfl
  softwareVersion := by rintro s _ ⟨v, rfl⟩; rfl
  serialNumber := by rintro s _ ⟨v, rfl⟩; rfl
  nextTxAnswer := by rintro s _ ⟨v, rfl⟩; rfl
  setBitrate := by rintro s _ b ⟨v, rfl⟩; exact ⟨v, rfl⟩
  setChannel := by rintro s _ c ⟨v, rfl⟩; exact ⟨v, rfl⟩
  logRequest := by rintro s _ f a ⟨v, rfl⟩; exact ⟨v, rfl⟩
  setTimestamps := by rintro s _ w ⟨v, rfl⟩; exact ⟨w, rfl⟩

theorem pushLine_setTimestamps (bs : List Byte) (s : State) (v : Bool) :
    pushLine bs (s.setTimestamps v) = (pushLine bs s).setTimestamps v := by
  unfold pushLine
  simp only [State.setTimestamps_cfg, State.setTimestamps_txQueue]
  cases pushAll s.cfg.txCap s.txQueue bs <;> rfl

theorem accumulate_setTimestamps (b : Byte) (s : State) (v : Bool) :
    accumulate b (s.setTimestamps v) = (accumulate b s).setTimestamps v := by
  unfold accumulate
  simp only [State.setTimestamps_cfg, State.setTimestamps_rxQueue]
  cases push s.cfg.rxCap s.rxQueue b <;> rfl

theorem flush_setTimestamps (s : State) (v : Bool) : flush (s.setTimestamps v) = (flush s).setTimestamps v := by
  unfold flush
  simp only [State.setTimestamps_txQueue]
  cases pop s.txQueue <;> rfl

theorem executeLine_setTimestamps {line : List Byte} {s t : State} (v : Bool) (h : executeLine line s = .next t) :
    ∃ w, executeLine line (s.setTimestamps v) = .next (t.setTimestamps w) := by
  cases hp : parse s.cfg line with
  | error e =>
    rw [executeLine_error hp] at h
    cases h
    exact ⟨v, by rw [executeLine_error (s := s.setTimestamps v) hp, pushLine_setTimestamps]⟩
  | ok i =>
    rw [executeLine_ok hp] at h
    obtain ⟨⟨w, hstate⟩, hreply⟩ := run_blind handlersBlindTo_timestamps ⟨v, rfl⟩ i
    refine ⟨w, ?_⟩
    rw [executeLine_ok (s := s.setTimestamps v) hp, exec_eq_pushLine, hstate, hreply, pushLine_setTimestamps,
      eq_of_exec h]

/-- Every agent's move gives the same state but perhaps for the time-stamp bit, whatever the bit was. -/
theorem agentStep_setTimestamps {e : Event} {s t : State} (v : Bool) (h : agentStep e s = .next t) :
    ∃ w, agentStep e (s.setTimestamps v) = .next (t.setTimestamps w) := by
  cases e with
  | rxByte b =>
    simp only [agentStep] at h ⊢
    by_cases hb : b = CR
    · rw [hb, rxByte_CR] at h ⊢
      exact executeLine_setTimestamps v h
    · rw [rxByte_of_ne hb] at h ⊢
      cases h
      exact ⟨v, by rw [accumulate_setTimestamps]⟩
  | canPoll a =>
    cases h
    cases a with
    | none => exact ⟨v, rfl⟩
    | some f => exact ⟨v, congrArg _ (pushLine_setTimestamps _ s.logPoll v)⟩
  | flush =>
    cases h
    exact ⟨v, congrArg _ (flush_setTimestamps s v)⟩
  | reset =>
    cases h
    exact ⟨false, rfl⟩

/-- Settles O59. -/
theorem timeStampBitIsNeverObserved : Obligations.TimeStampBitIsNeverObserved := by
  intro s t v h
  change ∃ w, step (s.setTimestamps v) = .next (t.setTimestamps w)
  obtain ⟨hv, -⟩ := step_cases h
  cases he : s.events with
  | nil =>
    rw [step_nil hv he] at h
    cases h
    exact ⟨v, step_nil (s := s.setTimestamps v) hv he⟩
  | cons e es =>
    rw [step_cons hv he] at h
    obtain ⟨w, hw⟩ := agentStep_setTimestamps v h
    exact ⟨w, (step_cons (s := s.setTimestamps v) hv he).trans hw⟩

/-! ### The flusher and the receiver -/

/-- A byte handed over from a queue of which `q` is left: what a flush that finds a byte does (`flush_cons`). -/
def handOver (b : Byte) (q : List Byte) (s : State) : State := (s.setTxQueue q).emitByte b

theorem handlersBlindTo_handOver (b : Byte) (q : List Byte) : HandlersBlindTo fun s s' => s' = handOver b q s where
  cfg := by rintro s _ rfl; rfl
  channelState := by rintro s _ rfl; rfl
  flags := by rintro s _ rfl; rfl
  hardwareVersion := by rintro s _ rfl; rfl
  softwareVersion := by rintro s _ rfl; rfl
  serialNumber := by rintro s _ rfl; rfl
  nextTxAnswer := by rintro s _ rfl; rfl
  setBitrate := by rintro s _ v rfl; rfl
  setChannel := by rintro s _ v rfl; rfl
  logRequest := by rintro s _ f a rfl; rfl
  setTimestamps := by rintro s _ v rfl; rfl

/-- A line that fits may be pushed before or after a byte is handed over. -/
theorem pushLine_handOver {bs : List Byte} {s : State} {b : Byte} {q : List Byte} (hq : s.txQueue = b :: q)
    (hroom : s.Room bs.length) : pushLine bs (handOver b q s) = flush (pushLine bs s) := by
  have hroom' : (handOver b q s).Room bs.length := by
    rw [State.Room, hq, List.length_cons] at hroom
    change q.length + bs.length ≤ s.cfg.txCap
    omega
  have htx : (s.setTxQueue (s.txQueue ++ bs)).txQueue = b :: (q ++ bs) := by simp [hq]
  rw [pushLine_room hroom', pushLine_room hroom, flush_cons htx]
  rfl

/-- A byte may be accumulated or dropped before or after a byte is handed over. -/
theorem accumulate_handOver {c : Byte} {s : State} {b : Byte} {q : List Byte} (hq : s.txQueue = b :: q) :
    accumulate c (handOver b q s) = flush (accumulate c s) := by
  have htx : (accumulate c s).txQueue = b :: q := by rw [accumulate_frame]; exact hq
  rw [flush_cons htx]
  rcases accumulate_cases c s with ⟨hr, hx⟩ | ⟨hr, hx⟩
  · rw [hx, accumulate_room (s := handOver b q s) hr]; rfl
  · rw [hx, accumulate_full (s := handOver b q s) hr]; rfl

/-- A line may be executed before or after a byte is handed over, where its reply of at most 27 bytes fits. -/
theorem executeLine_handOver {line : List Byte} {s t : State} {b : Byte} {q : List Byte} (hq : s.txQueue = b :: q)
    (hroom : s.Room 27) (h : executeLine line s = .next t) :
    executeLine line (handOver b q s) = .next (flush t) := by
  cases hp : parse s.cfg line with
  | error e =>
    have hbell : s.Room [BELL].length := by rw [State.Room, List.length_singleton]; omega
    rw [executeLine_error hp] at h
    cases h
    rw [executeLine_error (s := handOver b q s) hp, pushLine_handOver hq hbell]
  | ok i =>
    have hle := run_replyLine_length_le i s
    have hreplyRoom : (run i s).1.Room (replyLine (run i s).2).length := by
      rw [State.Room, run_txQueue, run_cfg]
      omega
    obtain ⟨hstate, hreply⟩ := run_blind (handlersBlindTo_handOver b q) (s := s) rfl i
    rw [executeLine_ok hp] at h
    rw [executeLine_ok (s := handOver b q s) hp, exec_eq_pushLine, hstate, hreply, eq_of_exec h,
      pushLine_handOver ((run_txQueue i s).trans hq) hreplyRoom]

/-- Settles O57. -/
theorem flushCommutesWithReceive : Obligations.FlushCommutesWithReceive := by
  intro s t c hne hroom h
  obtain ⟨b, q, hq⟩ := List.exists_cons_of_ne_nil hne
  have hflush : flush s = handOver b q s := flush_cons hq
  rw [hflush]
  by_cases hc : c = CR
  · rw [hc, rxByte_CR] at h ⊢
    exact executeLine_handOver (s := s.setRxQueue []) hq hroom h
  · rw [rxByte_of_ne hc] at h ⊢
    cases h
    rw [accumulate_handOver hq]

end Sys2Proof.Machine
end

