-- ==== Sys2Proof/Proofs/Runs.lean ====
section
/-! Runs of many steps: a line sent byte by byte (R290 to R298), the output as whole lines (R66, R67), and the way to
quiescence under a finite schedule and under a fair one without end (R316, R317). -/

namespace Sys2Proof.Machine

/-- A run of `m` steps and then one of `n` more. -/
theorem run_add {s t : State} (m n : Nat) (h : Host.Core.run core m s = .next t) :
    Host.Core.run core (m + n) s = Host.Core.run core n t := by
  induction m generalizing s with
  | zero =>
    cases h
    rw [Nat.zero_add]
  | succ m ih =>
    rw [Nat.succ_add]
    cases hs : step s with
    | next u =>
      rw [run_succ m hs] at h
      rw [run_succ (m + n) hs]
      exact ih h
    | fault r => cases r
    | refused r =>
      have hs' : core.step s = .refused r := hs
      simp only [Host.Core.run, hs'] at h
      cases h

theorem run_one (s : State) : Host.Core.run core 1 s = step s := by
  have hs : core.step s = step s := rfl
  simp only [Host.Core.run, hs]
  cases step s <;> rfl

/-- A run that completes began with a step that did. -/
theorem step_of_run_succ {n : Nat} {s t : State} (h : Host.Core.run core (n + 1) s = .next t) :
    ∃ u, step s = .next u ∧ Host.Core.run core n u = .next t := by
  cases hs : step s with
  | next u => exact ⟨u, rfl, (run_succ n hs).symm.trans h⟩
  | fault r => cases r
  | refused r =>
    have hs' : core.step s = .refused r := hs
    simp only [Host.Core.run, hs'] at h
    cases h

/-! ### A line sent byte by byte -/

/-- Bytes for which there is room are appended in arrival order, with no other effect (R293). -/
theorem run_sendBytes_room {line : List Byte} {s : State} {es : List Event} (hv : s.cfg.Valid) (hcr : CR ∉ line)
    (hroom : s.rxQueue.length + line.length ≤ s.cfg.rxCap) (he : s.events = sendBytes line ++ es) :
    Host.Core.run core line.length s = .next { s with events := es, rxQueue := s.rxQueue ++ line } := by
  induction line generalizing s with
  | nil =>
    rw [List.append_nil, ← show s.events = es from he]
    rfl
  | cons b line ih =>
    obtain ⟨hb, hcr'⟩ := not_or.mp (List.mem_cons.not.mp hcr)
    rw [List.length_cons] at hroom ⊢
    have hstep : step s = .next ((s.setEvents (sendBytes line ++ es)).setRxQueue (s.rxQueue ++ [b])) := by
      rw [step_accumulates hv he (Ne.symm hb)]
      exact congrArg _ (accumulate_room (s := s.setEvents (sendBytes line ++ es)) (by
        change s.rxQueue.length ≠ s.cfg.rxCap
        omega))
    have hroom' : (s.rxQueue ++ [b]).length + line.length ≤ s.cfg.rxCap := by simp; omega
    rw [run_succ _ hstep, ih (s := (s.setEvents (sendBytes line ++ es)).setRxQueue (s.rxQueue ++ [b])) hv hcr' hroom' rfl,
      State.setRxQueue_rxQueue, List.append_assoc]
    rfl

/-- Bytes for which there is no room are dropped, and all they do is set the flag (R293, R294). -/
theorem run_sendBytes_full {line : List Byte} {b : Byte} {s : State} {es : List Event} (hv : s.cfg.Valid)
    (hcr : CR ∉ b :: line) (hfull : s.rxQueue.length = s.cfg.rxCap) (he : s.events = sendBytes (b :: line) ++ es) :
    Host.Core.run core (b :: line).length s = .next { s with events := es, flags := latchRxQueueFull s.flags } := by
  induction line generalizing b s with
  | nil =>
    rw [List.length_singleton, run_one, step_accumulates hv he (Ne.symm (List.ne_of_not_mem_cons hcr))]
    exact congrArg Host.Outcome.next (accumulate_full (s := s.setEvents es) hfull)
  | cons c line ih =>
    obtain ⟨hb, hcr'⟩ := not_or.mp (List.mem_cons.not.mp hcr)
    have hstep : step s = .next ((s.setEvents (sendBytes (c :: line) ++ es)).setFlags (latchRxQueueFull s.flags)) := by
      rw [step_accumulates hv he (Ne.symm hb)]
      exact congrArg Host.Outcome.next (accumulate_full (s := s.setEvents (sendBytes (c :: line) ++ es)) hfull)
    rw [List.length_cons, run_succ _ hstep]
    exact ih hv hcr' hfull rfl

theorem sendLine_append (line : List Byte) (es : List Event) :
    sendLine line ++ es = sendBytes line ++ .rxByte CR :: es := by simp [sendLine]

theorem sendBytes_append (l l' : List Byte) (es : List Event) :
    sendBytes (l ++ l') ++ es = sendBytes l ++ (sendBytes l' ++ es) := by simp [sendBytes]

/-- A queue drained to what it was before, empty, is unchanged. -/
theorem setRxQueue_self {s : State} {q : List Byte} (h : s.rxQueue = q) : s.setRxQueue q = s := by subst h; rfl

/-- Settles O44: the bytes of the line all find room, and the terminator executes them. -/
theorem wholeLineRunsAtItsTerminator : Obligations.WholeLineRunsAtItsTerminator := by
  intro s line es hv hempty hcr hfit he
  rw [sendLine_append] at he
  have hsent := run_sendBytes_room hv hcr (by rw [hempty, List.length_nil]; omega) he
  rw [hempty, List.nil_append] at hsent
  refine ⟨hsent, ?_⟩
  have hstep := step_terminator (s := { s with events := .rxByte CR :: es, rxQueue := line }) hv rfl
  refine (run_add _ 1 hsent).trans ((run_one _).trans (hstep.trans ?_))
  exact congrArg (executeLine line) (setRxQueue_self (s := s.setEvents es) hempty)

/-- A line of more than `CMD_ARG_CAP + 1` bytes is illegal, whatever its first byte (R94). -/
theorem parse_error_of_long {c : Config} {line : List Byte} (h : c.cmdArgCap + 1 < line.length) :
    ∃ e, parse c line = .error e := by
  cases line with
  | nil => exact absurd h (Nat.not_lt_zero _)
  | cons b arg =>
    have hlong : c.cmdArgCap < arg.length := Nat.lt_of_succ_lt_succ h
    exact exists_parse_error_iff.mpr (.inr (.inr ⟨b, arg, rfl, hlong⟩))

/-- Settles O45: the first `RX_CAP` bytes are stored, the others dropped, and what was stored is too long a line. -/
theorem overlongLineNeverRuns : Obligations.OverlongLineNeverRuns := by
  intro s line es hv hempty hcr hlong he hroom
  have htake : (line.take s.cfg.rxCap).length = s.cfg.rxCap := List.length_take_of_le hlong.le
  obtain ⟨b, dropped, hdrop⟩ := List.exists_cons_of_length_pos (l := line.drop s.cfg.rxCap) (by simp; omega)
  have hline : line = line.take s.cfg.rxCap ++ b :: dropped := by rw [← hdrop, List.take_append_drop]
  rw [sendLine_append, hline, sendBytes_append] at he
  rw [hline, List.mem_append, not_or] at hcr
  obtain ⟨hcrTake, hcrDrop⟩ := hcr
  have hstored := run_sendBytes_room hv hcrTake (by rw [hempty, htake, List.length_nil]; omega) he
  rw [hempty, List.nil_append] at hstored
  have hdropped := run_sendBytes_full (s := { s with
    events := sendBytes (b :: dropped) ++ .rxByte CR :: es, rxQueue := line.take s.cfg.rxCap }) hv hcrDrop htake rfl
  obtain ⟨e, hparse⟩ : ∃ e, parse s.cfg (line.take s.cfg.rxCap) = .error e := by
    obtain ⟨hcap, -⟩ := hv
    exact parse_error_of_long (by rw [htake]; omega)
  have hlength : line.length + 1 = (line.take s.cfg.rxCap).length + ((b :: dropped).length + 1) := by
    conv_lhs => rw [hline, List.length_append, Nat.add_assoc]
  have hbell := (illegalLineRingsBell { s with
    events := .rxByte CR :: es, rxQueue := line.take s.cfg.rxCap
    flags := latchRxQueueFull s.flags } es e hv rfl hparse).1 hroom
  rw [hlength, run_add _ _ hstored, run_add _ 1 hdropped]
  refine (run_one _).trans (hbell.trans (congrArg Host.Outcome.next ?_))
  exact setRxQueue_self (s := { s with
    events := es, flags := latchRxQueueFull s.flags, txQueue := s.txQueue ++ [BELL] }) hempty

/-! ### The output as whole lines -/

/-- A line as the machine queues it: a bell, or at most 27 bytes closed by the terminator (R66, R203). -/
def WholeLine (l : List Byte) : Prop := l.length ≤ 27 ∧ (l = [BELL] ∨ ∃ r, l = r ++ [CR])

/-- From `s` to `t` nothing handed over is taken back, and the output is extended by whole lines (R66, R67). -/
def OutputExtends (s t : State) : Prop :=
  s.serOut <+: t.serOut ∧ ∃ lines : List (List Byte), (∀ l ∈ lines, WholeLine l) ∧
    t.serOut ++ t.txQueue = s.serOut ++ s.txQueue ++ lines.flatten

theorem OutputExtends.of_eq {s t : State} (hser : t.serOut = s.serOut) (htx : t.txQueue = s.txQueue) :
    OutputExtends s t := ⟨⟨[], by rw [hser, List.append_nil]⟩, [], nofun, by simp [hser, htx]⟩

theorem OutputExtends.trans {s t u : State} (hst : OutputExtends s t) (htu : OutputExtends t u) :
    OutputExtends s u := by
  obtain ⟨hpre, lines, hwhole, hout⟩ := hst
  obtain ⟨hpre', lines', hwhole', hout'⟩ := htu
  refine ⟨hpre.trans hpre', lines ++ lines', ?_, by rw [hout', hout, List.flatten_append, List.append_assoc]⟩
  intro l hl
  exact (List.mem_append.mp hl).elim (hwhole l) (hwhole' l)

theorem pushLine_outputExtends {bs : List Byte} (hbs : WholeLine bs) (s : State) : OutputExtends s (pushLine bs s) := by
  refine ⟨by simp, ?_⟩
  rcases pushLine_txQueue bs s with hx | hx
  · exact ⟨[bs], by simpa using hbs, by simp [hx]⟩
  · exact ⟨[], nofun, by simp [hx]⟩

theorem flush_outputExtends (s : State) : OutputExtends s (flush s) := by
  cases hq : s.txQueue with
  | nil => rw [flush_nil hq]; exact .of_eq rfl rfl
  | cons b q =>
    rw [flush_cons hq]
    exact ⟨⟨[b], rfl⟩, [], nofun, by simp [hq]⟩

theorem replyLine_whole (i : Instr) (s : State) : WholeLine (replyLine (run i s).2) := by
  refine ⟨run_replyLine_length_le i s, ?_⟩
  cases (run i s).2 with
  | response bs => exact .inr ⟨bs, rfl⟩
  | error k => exact .inl rfl

theorem bell_whole : WholeLine [BELL] := ⟨by decide, .inl rfl⟩

theorem frameLine_whole (f : Frame) : WholeLine (encodeFrame f true ++ [CR]) := ⟨frameLine_length_le f, .inr ⟨_, rfl⟩⟩

/-- Every step but reset extends the output by whole lines, by one at most. -/
theorem step_outputExtends {s t : State} (h : step s = .next t) (hr : .reset ∉ s.events) : OutputExtends s t := by
  obtain ⟨-, ⟨-, rfl⟩ | ⟨b, es, -, -, rfl⟩ | ⟨es, -, -, -, rfl⟩ | ⟨es, i, -, -, rfl⟩ | ⟨a, es, -, rfl⟩ |
    ⟨es, -, rfl⟩ | ⟨es, he, -⟩⟩ := step_cases h
  · exact .of_eq rfl rfl
  · rw [accumulate_frame]; exact .of_eq rfl rfl
  · exact pushLine_outputExtends bell_whole ((s.setEvents es).setRxQueue [])
  · exact OutputExtends.trans (.of_eq (by simp) (by simp)) (pushLine_outputExtends (replyLine_whole i _) _)
  · cases a with
    | none => exact .of_eq rfl rfl
    | some f => exact pushLine_outputExtends (frameLine_whole f) (s.setEvents es).logPoll
  · exact flush_outputExtends (s.setEvents es)
  · exact absurd (he ▸ List.mem_cons_self) hr

/-- A step consumes the event it follows. -/
theorem step_events {s t : State} (h : step s = .next t) : t.events = s.events.tail := by
  obtain ⟨-, ⟨he, rfl⟩ | ⟨b, es, he, -, rfl⟩ | ⟨es, -, he, -, rfl⟩ | ⟨es, i, he, -, rfl⟩ | ⟨a, es, he, rfl⟩ |
    ⟨es, he, rfl⟩ | ⟨es, he, rfl⟩⟩ := step_cases h <;> rw [he]
  · rfl
  · rw [accumulate_frame]; rfl
  · simp
  · simp
  · rw [canPoll_frame]; rfl
  · rw [flush_frame]; rfl
  · rfl

/-- Settles O56, step by step: a reset that is not scheduled does not come. -/
theorem outputIsASequenceOfWholeLines : Obligations.OutputIsASequenceOfWholeLines := by
  intro n
  suffices hext : ∀ s t : State, .reset ∉ s.events → Host.Core.run core n s = .next t → OutputExtends s t from hext
  induction n with
  | zero =>
    intro s t _ h
    cases h
    exact .of_eq rfl rfl
  | succ n ih =>
    intro s t hr h
    obtain ⟨u, hstep, hrun⟩ := step_of_run_succ h
    have hr' : .reset ∉ u.events := by
      rw [step_events hstep]
      exact fun hmem => hr (List.mem_of_mem_tail hmem)
    exact (step_outputExtends hstep hr).trans (ih u t hr' hrun)

/-! ### Quiescence under a finite schedule -/

/-- A step under a silent schedule, when there is an event: a flush, or a count of one poll. -/
theorem step_silent {s : State} {e : Event} {es : List Event} (hv : s.cfg.Valid) (he : s.events = e :: es)
    (hs : e.Silent) : (e = .flush ∧ step s = .next (flush (s.setEvents es))) ∨
      (e = .canPoll none ∧ step s = .next (s.setEvents es).logPoll) := by
  rcases hs with rfl | rfl
  · exact .inl ⟨rfl, step_cons hv he⟩
  · exact .inr ⟨rfl, step_cons hv he⟩

/-- What a silent schedule `es` with enough flushes leaves of `s`: every byte handed over, every poll counted (R317). -/
def settled (es : List Event) (s : State) : State :=
  { s with
    events := [], txQueue := [], serOut := s.serOut ++ s.txQueue, canPolls := s.canPolls + es.count (.canPoll none) }

theorem settled_nil {s : State} (he : s.events = []) (hempty : s.txQueue = []) : settled [] s = s := by
  have hpolls : s.canPolls + List.count (Event.canPoll none) [] = s.canPolls := rfl
  rw [settled, hempty, hpolls, List.append_nil, ← hempty, ← he]

/-- A flush first and then the rest settle what the whole schedule settles. -/
theorem settled_flush (es : List Event) (s : State) :
    settled (.flush :: es) s = settled es (flush (s.setEvents es)) := by
  have hcount : (Event.flush :: es).count (.canPoll none) = es.count (.canPoll none) :=
    List.count_cons_of_ne (by simp)
  cases hq : s.txQueue with
  | nil =>
    rw [flush_nil (s := s.setEvents es) hq, settled, hcount]
    rfl
  | cons b q =>
    rw [flush_cons (s := s.setEvents es) hq, settled, hcount, hq, List.append_cons]
    rfl

/-- A poll first and then the rest settle what the whole schedule settles. -/
theorem settled_poll (es : List Event) (s : State) :
    settled (.canPoll none :: es) s = settled es (s.setEvents es).logPoll := by
  rw [settled, List.count_cons_self, Nat.add_comm _ 1, ← Nat.add_assoc]
  rfl

theorem flush_txQueue_length (s : State) : (flush s).txQueue.length = s.txQueue.length - 1 := by
  cases hq : s.txQueue with
  | nil => rw [flush_nil hq, hq]; rfl
  | cons b q => rw [flush_cons hq]; rfl

/-- A silent schedule with enough flushes runs to its end and settles the state (R317). -/
theorem run_silent {es : List Event} {s : State} (hv : s.cfg.Valid) (he : s.events = es) (hs : ∀ e ∈ es, e.Silent)
    (hcount : s.txQueue.length ≤ es.count .flush) : Host.Core.run core es.length s = .next (settled es s) := by
  induction es generalizing s with
  | nil =>
    rw [settled_nil he (List.eq_nil_of_length_eq_zero (Nat.le_zero.mp hcount))]
    rfl
  | cons e es ih =>
    have hs' : ∀ e ∈ es, e.Silent := fun e' he' => hs e' (List.mem_cons_of_mem _ he')
    rcases step_silent hv he (hs e List.mem_cons_self) with ⟨rfl, hstep⟩ | ⟨rfl, hstep⟩
    · rw [List.count_cons_self] at hcount
      have hcount' : (flush (s.setEvents es)).txQueue.length ≤ es.count .flush := by
        rw [flush_txQueue_length]
        exact Nat.sub_le_of_le_add hcount
      rw [List.length_cons, run_succ _ hstep, settled_flush]
      exact ih (by rw [flush_frame]; exact hv) (by rw [flush_frame]; rfl) hs' hcount'
    · rw [List.count_cons_of_ne (by simp)] at hcount
      rw [List.length_cons, run_succ _ hstep, settled_poll]
      exact ih (s := (s.setEvents es).logPoll) hv rfl hs' hcount

/-- A quiescent state stays so, and a step changes nothing but the schedule and the count of polls (R317). -/
theorem step_quiescent {s : State} (hv : s.cfg.Valid) (hq : s.Quiescent) :
    ∃ t, step s = .next t ∧ t = { s with events := s.events.tail, canPolls := t.canPolls } ∧ t.Quiescent := by
  obtain ⟨hs, hempty⟩ := hq
  cases he : s.events with
  | nil => exact ⟨s, step_nil hv he, by rw [List.tail_nil, ← he], hs, hempty⟩
  | cons e es =>
    rw [he] at hs
    have hs' : ∀ e ∈ es, e.Silent := fun e' he' => hs e' (List.mem_cons_of_mem _ he')
    rcases step_silent hv he (hs e List.mem_cons_self) with ⟨-, hstep⟩ | ⟨-, hstep⟩
    · rw [flush_nil (s := s.setEvents es) hempty] at hstep
      exact ⟨_, hstep, rfl, hs', hempty⟩
    · exact ⟨_, hstep, rfl, hs', hempty⟩

/-- Settles O47. -/
theorem flushingReachesQuiescence : Obligations.FlushingReachesQuiescence :=
  ⟨fun _ hv hs hcount => ⟨_, run_silent hv rfl hs hcount, rfl, nofun, rfl⟩, fun _ => step_quiescent⟩

/-! ### Quiescence under a fair schedule without end -/

/-- The first instants of an execution are a run of `step` with their moves scheduled (R314). -/
theorem run_of_execution {σ : Schedule} {x : Nat → State} (hx : Execution σ x) (n : Nat) (es : List Event) :
    Host.Core.run core ((List.range n).filterMap σ).length
      { x 0 with events := (List.range n).filterMap σ ++ es } = .next { x n with events := es } := by
  induction n generalizing es with
  | zero => rfl
  | succ n ih =>
    have hinstant := hx n
    rw [List.range_succ, List.filterMap_append, List.length_append, List.append_assoc, run_add _ _ (ih _)]
    cases hσ : σ n with
    | none =>
      rw [hσ, instant_none] at hinstant
      simp only [hinstant, List.filterMap_cons, hσ, List.filterMap_nil]
      rfl
    | some e =>
      rw [hσ, instant_some] at hinstant
      obtain ⟨hv, -, hmove⟩ := hinstant
      have hmove' : agentStep e ((x n).setEvents es) = .next ((x (n + 1)).setEvents es) := agentStep_setEvents es hmove
      simp only [List.filterMap_cons, hσ, List.filterMap_nil]
      exact (run_one _).trans ((step_cons (s := { x n with events := e :: es }) hv rfl).trans hmove')

section
variable {σ : Schedule} {x : Nat → State} (hx : Execution σ x) {k : Nat} (hsilent : SilentFrom σ k)
include hx hsilent

/-- A silent instant moves a byte from the queue to the output or leaves both (R313). -/
theorem silent_keeps_output {n : Nat} (hn : k ≤ n) :
    (x n).serOut ++ (x n).txQueue = (x k).serOut ++ (x k).txQueue := by
  induction n, hn using Nat.le_induction with
  | base => rfl
  | succ n hn ih =>
    rcases instant_silent_cases (hx n) (hsilent n hn) with ⟨-, b, q, hq, ht⟩ | ⟨-, ht⟩ | ⟨-, ht⟩
    · rw [ht, ← ih, hq]; simp
    · rw [ht, ← ih]; rfl
    · rw [ht, ih]

theorem silent_queue_antitone {m n : Nat} (hm : k ≤ m) (hmn : m ≤ n) : (x n).txQueue.length ≤ (x m).txQueue.length := by
  induction n, hmn using Nat.le_induction with
  | base => exact le_rfl
  | succ n hmn ih =>
    rcases instant_silent_cases (hx n) (hsilent n (hm.trans hmn)) with ⟨-, b, q, hq, ht⟩ | ⟨-, ht⟩ | ⟨-, ht⟩
    · rw [hq, List.length_cons] at ih
      rw [ht]
      exact Nat.le_of_succ_le ih
    · rw [ht]; exact ih
    · rw [ht]; exact ih

/-- A scheduled flush shortens the queue. -/
theorem flush_shortens {n : Nat} (hn : k ≤ n) (hflush : σ n = some .flush) :
    (x (n + 1)).txQueue.length < (x n).txQueue.length := by
  rcases instant_silent_cases (hx n) (hsilent n hn) with ⟨-, b, q, hq, ht⟩ | ⟨hσ, -⟩ | ⟨hσ, -⟩
  · rw [ht, hq]; exact Nat.lt_succ_self _
  · rw [hflush] at hσ; cases hσ
  · rw [hflush] at hσ; cases hσ

/-- A fair flusher empties the queue: while bytes are left another flush comes (R316). -/
theorem queue_empties (hfair : WeaklyFair σ x) {n : Nat} (hn : k ≤ n) : ∃ m, n ≤ m ∧ (x m).txQueue = [] := by
  induction hlen : (x n).txQueue.length using Nat.strong_induction_on generalizing n with
  | _ len ih =>
    by_contra hnever
    push Not at hnever
    obtain ⟨m, hnm, hflush⟩ := hfair n hnever
    have hshort := flush_shortens hx hsilent (hn.trans hnm) hflush
    have hle := silent_queue_antitone hx hsilent hn hnm
    obtain ⟨j, hj, hempty⟩ := ih _ (by omega) (n := m + 1) (by omega) rfl
    exact hnever j (by omega) hempty

/-- Once the queue is empty, silent instants change only the count of polls (R317). -/
theorem rests_when_empty {m : Nat} (hm : k ≤ m) (hempty : (x m).txQueue = []) {j : Nat} (hj : m ≤ j) :
    x j = { x m with canPolls := (x j).canPolls } := by
  induction j, hj using Nat.le_induction with
  | base => rfl
  | succ j hj ih =>
    have hemptyj : (x j).txQueue = [] := by rw [ih]; exact hempty
    rcases instant_silent_cases (hx j) (hsilent j (hm.trans hj)) with ⟨-, b, q, hq, -⟩ | ⟨-, ht⟩ | ⟨-, ht⟩
    · rw [hemptyj] at hq; cases hq
    · rw [ht, ih]; rfl
    · rw [ht]; exact ih

end

/-- Settles O60. -/
theorem fairExecutionsReachQuiescence : Obligations.FairExecutionsReachQuiescence := by
  refine fun σ x hx => ⟨run_of_execution hx, fun k hfair hsilent => ?_⟩
  obtain ⟨m, hkm, hempty⟩ := queue_empties hx hsilent hfair (le_refl k)
  have hout := silent_keeps_output hx hsilent hkm
  rw [hempty, List.append_nil] at hout
  exact ⟨m, hkm, hempty, hout, fun j => rests_when_empty hx hsilent hkm hempty⟩

end Sys2Proof.Machine
end
